-- ==== Sys2Proof/Word.lean ====
section
/-! DEFINITION. The word of the machine and the text its program is written in.

R10, R21: every register and every data cell holds one `int32`. It is kept as its 32-bit pattern, and its
value is the two's-complement reading `BitVec.toInt`. R4, R13: program text is a string of characters. -/

namespace Sys2Proof

/-- An `int32` (R10), as the 32-bit pattern `bits32`. Its integer value is `toInt`. -/
abbrev Word := BitVec 32

/-- A string of characters (R13). Character lists compute in the kernel where `String` does so slowly. -/
abbrev Text := List Char

/-- One whitespace-delimited token of a text (R13, R72). -/
abbrev Token := Text

end Sys2Proof
end

