-- ==== Sys2Proof/Syntax.lean ====
section
/-! DEFINITION. The names of the machine: registers, operand classes, memory cells, fault causes and the
thirteen instructions. -/

namespace Sys2Proof

/-- The seven registers (R20), named by role; their spelling is the parameter `REG_NAMES` (R8). -/
inductive Reg where
  /-- `AYB`, the accumulator. -/
  | ayb
  /-- `BEN`, general-purpose register 1. -/
  | ben
  /-- `GIM`, general-purpose register 2. -/
  | gim
  /-- `DA`, general-purpose register 3. -/
  | da
  /-- `CR`, the comparison register (R24). -/
  | cr
  /-- `OF`, the overflow register (R25). -/
  | of
  /-- `PC`, the program counter (R26). -/
  | pc
deriving DecidableEq, Repr

/-- The operand classes `Reg(r)`, `Mem(a)` and `Imm(v)` (R78). A memory-indirect address may be negative
(R80, C7), so it is an integer. -/
inductive Operand where
  | reg (r : Reg)
  | mem (a : Int)
  | imm (v : Word)
deriving DecidableEq, Repr

/-- One memory cell (R11, R50): program text or one `int32`. -/
inductive Cell where
  /-- `Instr(t)`, a line of program text. -/
  | instr (t : Text)
  /-- `Data(v)`, an integer. -/
  | data (v : Word)
deriving DecidableEq, Repr, Inhabited

/-- The fault causes, one for each code of the table of R241. -/
inductive FaultCause where
  /-- Code 0: no fault recorded. -/
  | none
  /-- Code 1: the program file cannot be opened. Host load. -/
  | ioOpen
  /-- Code 2: more lines than cells. Host load. -/
  | capacity
  /-- Code 3: a memory-indirect address below `instSize`. -/
  | protection
  /-- Code 4: a memory-indirect address at or above `MEM_SIZE`. -/
  | bounds
  /-- Code 5: divisor 0. -/
  | divZero
  /-- Code 6: the quotient of -2147483648 by -1. -/
  | divOverflow
  /-- Code 7: no cell's first token is the label sought. -/
  | labelNotFound
  /-- Code 8: the cell a taken jump goes to is malformed. -/
  | badTarget
  /-- Code 9: no instruction token, or the first is no mnemonic. -/
  | incorrectInstruction
  /-- Code 10: wrong token count, or a missing comma token. -/
  | format
  /-- Code 11: a token of no operand class. -/
  | operandSyntax
  /-- Code 12: an immediate destination. -/
  | operandShape
  /-- Code 13: a fetch with a negative program counter. -/
  | pcRange
deriving DecidableEq, Repr

/-- The instructions (R3), one constructor for each row of the opcode map (R84). An F2 instruction holds
operand tokens `d` and `s`, an F1 instruction `d`, a jump its label operand `l` (R76). They are TOKENS: the
decoder does not classify them, so that an ill-formed operand raises its fault in the order of the
instruction's rule (R77, R110). -/
inductive Instr where
  /-- `MOV d , s` (R140). -/
  | mov (d s : Token)
  /-- `ADD d , s` (R151). -/
  | add (d s : Token)
  /-- `SUB d , s` (R152). -/
  | sub (d s : Token)
  /-- `MUL d , s` (R153). -/
  | mul (d s : Token)
  /-- `DIV d , s` (R155). -/
  | div (d s : Token)
  /-- `AND d , s` (R180). -/
  | and (d s : Token)
  /-- `OR d , s` (R181). -/
  | or (d s : Token)
  /-- `NOT d` (R182). -/
  | not (d : Token)
  /-- `CMP d , s` (R200). -/
  | cmp (d s : Token)
  /-- `JMP L` (R216). -/
  | jmp (l : Token)
  /-- `JG L` (R217). -/
  | jg (l : Token)
  /-- `JL L` (R218). -/
  | jl (l : Token)
  /-- `JE L` (R219). -/
  | je (l : Token)
deriving DecidableEq, Repr

end Sys2Proof
end

