-- ==== Sys2Proof/Config.lean ====
section
/-! DEFINITION. The parameters of an implementation (R8), and the values the spec leaves free.

The parameters are plain data, modelled at every value; `Config.standard` is the spec's default. The free
values are opaque constants without a body: nothing can be proved of what they are. -/

namespace Sys2Proof

/-- `OVF_MODE` (R8, D3). -/
inductive OvfMode where
  /-- `EXACT`: ADD, SUB and MUL set `OF` when the exact result is no `int32`. -/
  | exact
  /-- `INERT`: no instruction sets `OF` implicitly. -/
  | inert
deriving DecidableEq, Repr

/-- `LABEL_MODE` (R8, D6). -/
inductive LabelMode where
  /-- `STATIC`: the decoder skips a label token and a jump rewrites nothing. -/
  | static
  /-- `REWRITE`: a taken jump strips the label of its target cell. -/
  | rewrite
deriving DecidableEq, Repr

/-- `REG_NAMES` (R8, R20): how each register is spelled. -/
structure RegNames where
  ayb : Token
  ben : Token
  gim : Token
  da : Token
  cr : Token
  of : Token
  pc : Token
deriving DecidableEq, Repr

/-- The implementation parameters (R8). `MEM_SIZE` is any integer at least 1 (D31). -/
structure Config where
  memSize : Nat
  regNames : RegNames
  ovfMode : OvfMode
  labelMode : LabelMode
deriving DecidableEq, Repr

/-- The default spelling of the registers (R20, D2). -/
def RegNames.standard : RegNames where
  ayb := ['A', 'Y', 'B']
  ben := ['B', 'E', 'N']
  gim := ['G', 'I', 'M']
  da := ['D', 'A']
  cr := ['C', 'R']
  of := ['O', 'F']
  pc := ['P', 'C']

/-- The values this spec takes (R8): 32 cells, the default names, `EXACT`, `STATIC`. -/
def Config.standard : Config where
  memSize := 32
  regNames := RegNames.standard
  ovfMode := .exact
  labelMode := .static

/-- FREE VALUE: `PC` after a taken jump to cell `a` when `a` is no `int32`. The spec gives `pc <- a` (R104) and
an `int32` program counter (R21) and admits such cells (R8, R9), but states no value (log 10). -/
opaque Config.freeJumpPc : Nat → Word

/-- FREE VALUE: what the `n`-th failed load leaves in `instSize`, before it is brought into
`[0, MEM_SIZE]` (R273, log 9). -/
opaque Config.freeInstSize : Nat → Nat

/-- FREE VALUE: what the `n`-th failed load leaves in cell `a` (R273, log 9). -/
opaque Config.freeCell : Nat → Nat → Cell

/-- FREE VALUE: the label, if any, the `n`-th failed load leaves for cell `a` (R273, log 9). -/
opaque Config.freeLabel : Nat → Nat → Option Text

end Sys2Proof
end

