-- ==== Sys2Proof/Machine/State.lean ====
section
/-! DEFINITION. The state of the machine as plain data, the reasons a step can stop, and reset. -/

namespace Sys2Proof.Machine

/-- The register file (R20): seven registers of one `int32` each (R21). -/
structure Regs where
  ayb : Word
  ben : Word
  gim : Word
  da : Word
  cr : Word
  of : Word
  pc : Word
deriving DecidableEq, Repr

/-- Memory cells by address. A listed address is rising and never holds `Data(0)`, which is what an unlisted
address reads as (log 2); `Memory.wf` says so. -/
abbrev Memory := List (Nat × Cell)

/-- The label table `LT` (R34), a finite partial map listed by rising address. -/
abbrev Labels := List (Nat × Text)

/-- Everything the machine holds (R20 to R36), and two fields of the model's own: `cfg`, the parameters,
which nothing writes (log 1), and `freeCtr`, which numbers the draws of unspecified values (log 9). -/
structure State where
  /-- `MEM_SIZE`, `REG_NAMES`, `OVF_MODE`, `LABEL_MODE` (R8). -/
  cfg : Config
  /-- The register file (R20), the program counter among them (R26). -/
  regs : Regs
  /-- `instSize` (R30). -/
  instSize : Nat
  /-- `M` (R50). -/
  mem : Memory
  /-- `FAULT` (R31). -/
  fault : Bool
  /-- `FCAUSE` (R32). -/
  fcause : FaultCause
  /-- `LT` (R34). -/
  labels : Labels
  /-- How many failed loads have drawn unspecified values (log 9). -/
  freeCtr : Nat
deriving DecidableEq, Repr

/-- Why no step is enabled: a run has ended and the machine waits for the host (R107, R137, R254). A fault
of the spec is NOT one of these: it is a next state with `FAULT = 1` (R243, log 3). -/
inductive Fault where
  /-- Raised by the loop test when `FAULT = 0` and `pc >= instSize`: the run ended normally (R107). Safe. -/
  | normalHalt
  /-- Raised by the loop test when `FAULT = 1`: no further instruction executes (R100, R244). Safe. -/
  | faultHalt
deriving DecidableEq, Repr

/-- Where the model has no meaning to give. No state a load produces reaches either of the last two (R52). -/
inductive Refusal where
  /-- Raised by `exec` for an instruction without a meaning yet; none is left. Safe. -/
  | notModelled (mnemonic : String)
  /-- Raised by a data read of an `Instr` cell: `a model refuses` (R54, R137). Safe. -/
  | instrReadAsData
  /-- Raised by the fetch of a `Data` cell, for which R101 gives no case (log 7). Safe. -/
  | dataFetched
deriving DecidableEq, Repr

/-- Every register 0 (R36, R270, R271). -/
def Regs.zero : Regs where
  ayb := 0
  ben := 0
  gim := 0
  da := 0
  cr := 0
  of := 0
  pc := 0

/-- Construction (R270): registers 0, nothing loaded, no fault, no label, every cell `Data(0)`. -/
def State.construct (cfg : Config) : State where
  cfg := cfg
  regs := Regs.zero
  instSize := 0
  mem := []
  fault := false
  fcause := .none
  labels := []
  freeCtr := 0

/-- The machine right after reset: construction (R270) with the parameters this spec takes (R8). -/
def State.reset : State :=
  State.construct Config.standard

end Sys2Proof.Machine
end

