-- ==== Sys2Proof/Machine/Ops.lean ====
section
/-! DEFINITION. The named operations every instruction goes through: registers, memory cells, the label
table, the address check, the outcome of an instruction and its commit, taking a fault, and the one way out
of a fault. -/

namespace Sys2Proof.Machine

/-- `wrap32(v)` (R10): the `int32` congruent to `v` modulo 2^32. -/
def wrap32 (v : Int) : Word :=
  BitVec.ofInt 32 v

/-- `v` is an `int32` value (R10). -/
def isInt32 (v : Int) : Bool :=
  -2147483648 ≤ v && v ≤ 2147483647

/-! ### Registers -/

/-- `x[r]` (R11). No register is hardwired (R21). -/
def State.reg (s : State) (r : Reg) : Word :=
  match r with
  | .ayb => s.regs.ayb
  | .ben => s.regs.ben
  | .gim => s.regs.gim
  | .da => s.regs.da
  | .cr => s.regs.cr
  | .of => s.regs.of
  | .pc => s.regs.pc

/-- `x[r] <- v` on the register file (R11). -/
def Regs.set (x : Regs) (r : Reg) (v : Word) : Regs :=
  match r with
  | .ayb => { x with ayb := v }
  | .ben => { x with ben := v }
  | .gim => { x with gim := v }
  | .da => { x with da := v }
  | .cr => { x with cr := v }
  | .of => { x with of := v }
  | .pc => { x with pc := v }

/-- `x[r] <- v` (R11). -/
def State.setReg (s : State) (r : Reg) (v : Word) : State :=
  { s with regs := s.regs.set r v }

/-! ### Memory -/

/-- What an unlisted address holds (R54, R270). -/
def blankCell : Cell := .data 0

/-- `M[a]` (R11). -/
def Memory.read (m : Memory) (a : Nat) : Cell :=
  match m with
  | [] => blankCell
  | (b, c) :: rest => if a = b then c else Memory.read rest a

/-- `M[a] <- c`, an in-place overwrite (R55, C6) that keeps the canonical form. -/
def Memory.write (m : Memory) (a : Nat) (c : Cell) : Memory :=
  match m with
  | [] => if c = blankCell then [] else [(a, c)]
  | (b, x) :: rest =>
    if a < b then (if c = blankCell then (b, x) :: rest else (a, c) :: (b, x) :: rest)
    else if a = b then (if c = blankCell then rest else (a, c) :: rest)
    else (b, x) :: Memory.write rest a c

/-- The addresses of a list of pairs strictly rise. -/
def rising {α : Type} (l : List (Nat × α)) : Bool :=
  match l with
  | [] => true
  | [_] => true
  | (a, _) :: (b, y) :: rest => decide (a < b) && rising ((b, y) :: rest)

/-- The canonical form: addresses strictly rise and no listed cell is blank. -/
def Memory.wf (m : Memory) : Bool :=
  rising m && m.all (fun e => e.2 != blankCell)

/-- Every listed address is below `n`: the array has `n` cells (R50). -/
def addressesBelow {α : Type} (n : Nat) (l : List (Nat × α)) : Bool :=
  l.all (fun e => decide (e.1 < n))

/-- `M[a] <- c` on the state. -/
def State.setCell (s : State) (a : Nat) (c : Cell) : State :=
  { s with mem := s.mem.write a c }

/-- The text of a cell (R211). A `Data` cell has none, so no token of it can define a label (log 8). -/
def cellText (c : Cell) : Text :=
  match c with
  | .instr t => t
  | .data _ => []

/-! ### The label table -/

/-- `LT[a]`, if `a` is in its domain (R34). -/
def Labels.find (l : Labels) (a : Nat) : Option Text :=
  match l with
  | [] => none
  | (b, name) :: rest => if a = b then some name else Labels.find rest a

/-- `if a not in dom(LT): LT[a] <- name` (R213): an entry that exists is never replaced (D32). -/
def Labels.record (l : Labels) (a : Nat) (name : Text) : Labels :=
  match l with
  | [] => [(a, name)]
  | (b, x) :: rest =>
    if a < b then (a, name) :: (b, x) :: rest
    else if a = b then (b, x) :: rest
    else (b, x) :: Labels.record rest a name

/-! ### Raising, and data access -/

/-- How an instruction ends without an outcome: `raise F` (R12), or a refusal of the model. -/
inductive Stop where
  | raise (f : FaultCause)
  | refuse (r : Refusal)
deriving DecidableEq, Repr

/-- `CheckAddr(a)` (R53): PROTECTION below `instSize`, then BOUNDS from `MEM_SIZE` on. Answers the cell. -/
def checkAddr (s : State) (a : Int) : Except Stop Nat :=
  if a < s.instSize then .error (.raise .protection)
  else if s.cfg.memSize ≤ a then .error (.raise .bounds)
  else .ok a.toNat

/-- `MemRead(a, 1)` (R54), after `CheckAddr` passed. -/
def memRead (s : State) (a : Nat) : Except Stop Word :=
  match s.mem.read a with
  | .data v => .ok v
  | .instr _ => .error (.refuse .instrReadAsData)

/-! ### The outcome of an instruction and its commit -/

/-- Where `WriteOp` writes (R113): a register or a checked cell, never an immediate. -/
inductive Place where
  | reg (r : Reg)
  | cell (a : Nat)
deriving DecidableEq, Repr

/-- The control result of an outcome (R103). -/
inductive Control where
  /-- `Next`. -/
  | next
  /-- `Jump(a)`, by the label `name`. -/
  | jump (a : Nat) (name : Text)
deriving DecidableEq, Repr

/-- An outcome (R103): the pending writes and the control result. -/
structure Pending where
  /-- The destination write (R104 step 1). -/
  dest : Option (Place × Word) := none
  /-- Whether the overflow write happens (R104 step 2). -/
  ovf : Bool := false
  /-- The control result, which for a taken jump carries the writes of step 3. -/
  control : Control := .next
deriving DecidableEq, Repr

/-- `WriteOp(o, v)` (R113). -/
def State.writePlace (s : State) (p : Place) (v : Word) : State :=
  match p with
  | .reg r => s.setReg r v
  | .cell a => s.setCell a (.data v)

/-- `Strip(t)` (R214): what follows the first space character (0x20). -/
def strip (t : Text) : Text :=
  (t.dropWhile (fun c => c != ' ')).drop 1

/-- `pc <- a` (R104). An `a` that is no `int32` leaves a free value (log 10). -/
def pcOfCell (a : Nat) : Word :=
  if a < 2147483648 then BitVec.ofNat 32 a else Config.freeJumpPc a

/-- `pc <- wrap32(x[PC] + 1)` (R26, R104 step 4). -/
def State.advance (s : State) : State :=
  s.setReg .pc (wrap32 ((s.reg .pc).toInt + 1))

/-- The writes of a taken jump (R213, R104 steps 3 and 4): label table, then in REWRITE the stripped cell,
then `pc` without an increment. -/
def State.land (s : State) (a : Nat) (name : Text) : State :=
  let labelled := { s with labels := s.labels.record a name }
  let rewritten :=
    match s.cfg.labelMode with
    | .static => labelled
    | .rewrite => labelled.setCell a (.instr (strip (cellText (s.mem.read a))))
  rewritten.setReg .pc (pcOfCell a)

/-- `Commit(outcome)` (R104): destination, overflow, then the control result. -/
def commit (s : State) (p : Pending) : State :=
  let written :=
    match p.dest with
    | none => s
    | some (place, v) => s.writePlace place v
  let flagged := if p.ovf then written.setReg .of 1 else written
  match p.control with
  | .next => flagged.advance
  | .jump a name => flagged.land a name

/-! ### Taking a fault, and the way out of it -/

/-- `TakeFault(F)` (R243): the first cause is kept, `FAULT` is set, and nothing else changes; `pc` keeps the
address of the faulting instruction (R105, R242). -/
def takeFault (s : State) (f : FaultCause) : State :=
  { s with fault := true, fcause := if s.fault then s.fcause else f }

/-- `clear()` (R271): the only return from a fault (R244, R247). `M` and `LT` stay. -/
def clear (s : State) : State :=
  { s with regs := Regs.zero, instSize := 0, fault := false, fcause := .none }

/-- The end of an instruction (R103, R105): commit its outcome, or take the fault it raised with no write
of the instruction performed. -/
def complete (s : State) (r : Except Stop Pending) : Host.Outcome State Fault Refusal :=
  match r with
  | .ok p => .next (commit s p)
  | .error (.raise f) => .next (takeFault s f)
  | .error (.refuse why) => .refused why

end Sys2Proof.Machine
end

