-- ==== Sys2Proof/Machine/Flags.lean ====
section
/-! DEFINITION. The two flag registers: the overflow rule of `OF` and the comparison value of `CR`. -/

namespace Sys2Proof.Machine

/-- `Ovf(e)` (R150, D3): in EXACT the exact result is no `int32`; in INERT never. -/
def overflows (mode : OvfMode) (e : Int) : Bool :=
  match mode with
  | .exact => !isInt32 e
  | .inert => false

/-- The outcome of ADD, SUB and MUL (R150): the wrapped result, and `OF <- 1` when it overflows. `OF` is sticky:
it is never cleared (R25, D4). -/
def exactResult (mode : OvfMode) (p : Place) (e : Int) : Pending :=
  { dest := some (p, wrap32 e), ovf := overflows mode e }

/-- The value CMP gives `CR` (R200, C2): -1, 0 or +1 by the exact comparison of the two integers. -/
def compareValue (a b : Word) : Word :=
  if a.toInt < b.toInt then wrap32 (-1)
  else if a.toInt = b.toInt then wrap32 0
  else wrap32 1

/-- The condition of JG (R215). -/
def isGreater (s : State) : Bool :=
  s.reg .cr == wrap32 1

/-- The condition of JL (R215). -/
def isLess (s : State) : Bool :=
  s.reg .cr == wrap32 (-1)

/-- The condition of JE (R215). -/
def isEqual (s : State) : Bool :=
  s.reg .cr == wrap32 0

end Sys2Proof.Machine
end

