-- ==== Sys2Proof/Decode.lean ====
section
/-! DEFINITION. From text to instructions and back: tokens, the label prefix, the decoder (total, rejecting
by fault cause), the encoder, and the text an instruction's bits stand for. -/

namespace Sys2Proof

/-- R72, D10: space, horizontal tab, line feed, vertical tab, form feed, carriage return. -/
def isSpace (c : Char) : Bool :=
  c.toNat == 0x20 || (0x09 ≤ c.toNat && c.toNat ≤ 0x0D)

/-- `tokens(t)` (R72): the maximal runs of non-whitespace characters, in order. -/
def tokens (t : Text) : List Token :=
  (t.splitOnP isSpace).filter (fun tok => !tok.isEmpty)

/-- R74: the token ends in `:`. As the first token of a cell it is a label definition token. -/
def endsInColon (tok : Token) : Bool :=
  tok.getLast? == some ':'

/-- `InstrTokens(t)` (R75): in STATIC the tokens less a leading label definition token, in REWRITE all. -/
def instrTokens (mode : LabelMode) (t : Text) : List Token :=
  match mode, tokens t with
  | .static, tok :: rest => if endsInColon tok then rest else tok :: rest
  | _, toks => toks

/-- The operand tokens of an instruction, by format (R76). -/
inductive Format where
  /-- F2, dual operand: exactly four tokens, token 2 the comma. -/
  | f2 (mk : Token → Token → Instr)
  /-- F1, single operand: exactly two tokens. -/
  | f1 (mk : Token → Instr)
  /-- FJ, jump: exactly two tokens. -/
  | fj (mk : Token → Instr)

/-- The opcode map (R84): the mnemonic alone selects the instruction. Case counts (R73). -/
def opcodeMap : List (Token × Format) :=
  [ (['M', 'O', 'V'], .f2 .mov),
    (['A', 'D', 'D'], .f2 .add),
    (['S', 'U', 'B'], .f2 .sub),
    (['M', 'U', 'L'], .f2 .mul),
    (['D', 'I', 'V'], .f2 .div),
    (['A', 'N', 'D'], .f2 .and),
    (['O', 'R'], .f2 .or),
    (['N', 'O', 'T'], .f1 .not),
    (['C', 'M', 'P'], .f2 .cmp),
    (['J', 'M', 'P'], .fj .jmp),
    (['J', 'G'], .fj .jg),
    (['J', 'L'], .fj .jl),
    (['J', 'E'], .fj .je) ]

/-- The standalone comma token between the operands of an F2 instruction (R76). -/
def comma : Token := [',']

/-- The format checks of `Decode` (R77) on the tokens after the mnemonic. -/
def decodeOperands (f : Format) (rest : List Token) : Except FaultCause Instr :=
  match f, rest with
  | .f2 mk, [d, c, s] => if c = comma then .ok (mk d s) else .error .format
  | .f1 mk, [d] => .ok (mk d)
  | .fj mk, [l] => .ok (mk l)
  | _, _ => .error .format

/-- `Decode(k)` (R77): INCORRECT_INSTRUCTION for no token or no mnemonic, then FORMAT. -/
def decodeTokens (k : List Token) : Except FaultCause Instr :=
  match k with
  | [] => .error .incorrectInstruction
  | op :: rest =>
    match opcodeMap.lookup op with
    | none => .error .incorrectInstruction
    | some f => decodeOperands f rest

/-- The `instruction_decoder` (R131): the instruction in a cell's text, or the fault it raises. -/
def decode (mode : LabelMode) (t : Text) : Except FaultCause Instr :=
  decodeTokens (instrTokens mode t)

/-- The instruction tokens of an instruction (R76, R84). -/
def encodeTokens (i : Instr) : List Token :=
  match i with
  | .mov d s => [['M', 'O', 'V'], d, comma, s]
  | .add d s => [['A', 'D', 'D'], d, comma, s]
  | .sub d s => [['S', 'U', 'B'], d, comma, s]
  | .mul d s => [['M', 'U', 'L'], d, comma, s]
  | .div d s => [['D', 'I', 'V'], d, comma, s]
  | .and d s => [['A', 'N', 'D'], d, comma, s]
  | .or d s => [['O', 'R'], d, comma, s]
  | .not d => [['N', 'O', 'T'], d]
  | .cmp d s => [['C', 'M', 'P'], d, comma, s]
  | .jmp l => [['J', 'M', 'P'], l]
  | .jg l => [['J', 'G'], l]
  | .jl l => [['J', 'L'], l]
  | .je l => [['J', 'E'], l]

/-- Tokens written with one space between neighbours: DESIGN CHOICE among the spellings R72 reads alike
(log 13). -/
def joinTokens : List Token → Text
  | [] => []
  | [tok] => tok
  | tok :: rest => tok ++ ' ' :: joinTokens rest

/-- The encoder: the line of an instruction, without a label (R76, R84). -/
def encode (i : Instr) : Text :=
  joinTokens (encodeTokens i)

/-- The `n` low bytes of `w`, least significant first, as characters. -/
def wordChars : Nat → Nat → Text
  | 0, _ => []
  | n + 1, w => Char.ofNat (w % 256) :: wordChars n (w / 256)

/-- The line whose first character is the lowest byte of `w`: `nbits` in whole bytes, less trailing zero
bytes, which stand past the end of the line. DESIGN CHOICE: the spec numbers no bits (log 6). -/
def wordText (nbits w : Nat) : Text :=
  ((wordChars ((nbits + 7) / 8) w).reverse.dropWhile (fun c => c.toNat == 0)).reverse

/-- The instruction the decoder reads from the bits `w`, at the default LABEL_MODE. -/
def decodeTableWord (nbits w : Nat) : Option Instr :=
  (decode Config.standard.labelMode (wordText nbits w)).toOption

end Sys2Proof
end

