-- ==== Sys2Proof/WellFormed.lean ====
section
/-! DEFINITION. Which terms of the syntax stand for a line of program text. An ill-formed token could not
come out of a line: it is empty, holds whitespace, or holds a character that is not ASCII. -/

namespace Sys2Proof

/-- R72: a token is not empty and holds no whitespace; R4, R70: text is ASCII. -/
def Token.wf (tok : Token) : Bool :=
  !tok.isEmpty && tok.all (fun c => !isSpace c && c.toNat < 128)

/-- Every operand token of the instruction can stand on a line. -/
def Instr.wf (i : Instr) : Bool :=
  match i with
  | .mov d s => Token.wf d && Token.wf s
  | .add d s => Token.wf d && Token.wf s
  | .sub d s => Token.wf d && Token.wf s
  | .mul d s => Token.wf d && Token.wf s
  | .div d s => Token.wf d && Token.wf s
  | .and d s => Token.wf d && Token.wf s
  | .or d s => Token.wf d && Token.wf s
  | .not d => Token.wf d
  | .cmp d s => Token.wf d && Token.wf s
  | .jmp l => Token.wf l
  | .jg l => Token.wf l
  | .jl l => Token.wf l
  | .je l => Token.wf l

/-- R80: a memory-indirect operand can spell -9 to 99 only. Registers and immediates are always spelled. -/
def Operand.wf (o : Operand) : Bool :=
  match o with
  | .mem a => -9 ≤ a && a ≤ 99
  | .reg _ => true
  | .imm _ => true

end Sys2Proof
end

