-- ==== Sys2Proof/Machine/Operands.lean ====
section
/-! DEFINITION. The `operand_resolver` (R132): literals, classification, resolution, and the spelling of an
operand. -/

namespace Sys2Proof.Machine

/-! ### Literals -/

/-- A decimal digit (R79). -/
def isDecimal (c : Char) : Bool :=
  '0' ≤ c && c ≤ '9'

/-- The value of a string of digits in base 10 (R79). -/
def digitsValue (ds : Text) : Nat :=
  ds.foldl (fun n c => 10 * n + (c.toNat - '0'.toNat)) 0

/-- `[0-9]+`, one digit or more, and its value (R79). -/
def unsignedLiteral (ds : Text) : Option Nat :=
  if !ds.isEmpty && ds.all isDecimal then some (digitsValue ds) else none

/-- `IsIntLiteral` and `IntValue` together (R79): the value of `[+-]?[0-9]+`, none for any other string. -/
def intLiteral (t : Text) : Option Int :=
  match t with
  | [] => none
  | c :: ds =>
    if c = '+' then (unsignedLiteral ds).map (fun n : Nat => (n : Int))
    else if c = '-' then (unsignedLiteral ds).map (fun n : Nat => -(n : Int))
    else (unsignedLiteral (c :: ds)).map (fun n : Nat => (n : Int))

/-- `str(v)` (R13): base 10, a leading `-` when negative, no leading zeros. -/
def spellInt (v : Int) : Text :=
  if v < 0 then '-' :: Nat.toDigits 10 v.natAbs else Nat.toDigits 10 v.natAbs

/-! ### Register names -/

/-- The spelling of a register (R20). -/
def regName (names : RegNames) (r : Reg) : Token :=
  match r with
  | .ayb => names.ayb
  | .ben => names.ben
  | .gim => names.gim
  | .da => names.da
  | .cr => names.cr
  | .of => names.of
  | .pc => names.pc

/-- The seven registers (R20). -/
def allRegs : List Reg :=
  [.ayb, .ben, .gim, .da, .cr, .of, .pc]

/-- The register a token exactly matches, if any (R73, R78). -/
def regNamed (names : RegNames) (tok : Token) : Option Reg :=
  allRegs.find? (fun r => regName names r == tok)

/-! ### Classification -/

/-- The memory-indirect form of R78 and R80: 3 or 4 characters, the first `[` and the last `]`. -/
def isBracketed (tok : Token) : Bool :=
  (tok.length == 3 || tok.length == 4) && tok.head? == some '[' && tok.getLast? == some ']'

/-- `tok[1 : len(tok)-1]` (R78). -/
def innerText (tok : Token) : Text :=
  tok.tail.dropLast

/-- `Classify(tok)` (R78): register, then memory-indirect, then immediate; none is OPERAND_SYNTAX. -/
def classify (names : RegNames) (tok : Token) : Option Operand :=
  match regNamed names tok with
  | some r => some (.reg r)
  | none =>
    if isBracketed tok then (intLiteral (innerText tok)).map Operand.mem
    else
      match intLiteral tok with
      | some v => if isInt32 v then some (.imm (wrap32 v)) else none
      | none => none

/-- The constraints on `REG_NAMES` (R83): distinct names, each one token, no comma token, no literal and no
memory-indirect form. -/
def regNamesAdmitted (names : RegNames) : Bool :=
  (allRegs.map (regName names)).Nodup &&
    allRegs.all (fun r =>
      let tok := regName names r
      !tok.isEmpty && tok.all (fun c => !isSpace c) && tok != comma && (intLiteral tok).isNone &&
        !(isBracketed tok && (intLiteral (innerText tok)).isSome))

/-- The admitted parameters (R8, D31, R83). -/
def configAdmitted (cfg : Config) : Bool :=
  decide (1 ≤ cfg.memSize) && regNamesAdmitted cfg.regNames

/-- The encoder of operands: a register's name, `[N]` with N in -9 to 99 (R80), a literal (R79). -/
def spellOperand (names : RegNames) (o : Operand) : Token :=
  match o with
  | .reg r => regName names r
  | .mem a => '[' :: (spellInt a ++ [']'])
  | .imm v => spellInt v.toInt

/-! ### Resolution -/

/-- `Classify` as a step that raises OPERAND_SYNTAX (R78). -/
def classifyOrRaise (s : State) (tok : Token) : Except Stop Operand :=
  match classify s.cfg.regNames tok with
  | some o => .ok o
  | none => .error (.raise .operandSyntax)

/-- `ResolveDest(tok)` (R110): syntax, then shape, then address. -/
def resolveDest (s : State) (tok : Token) : Except Stop Place :=
  match classifyOrRaise s tok with
  | .error e => .error e
  | .ok (.imm _) => .error (.raise .operandShape)
  | .ok (.mem a) => (checkAddr s a).map Place.cell
  | .ok (.reg r) => .ok (.reg r)

/-- `ReadOp(o)` of a destination (R111). -/
def readPlace (s : State) (p : Place) : Except Stop Word :=
  match p with
  | .reg r => .ok (s.reg r)
  | .cell a => memRead s a

/-- `ResolveSrc(tok)` (R112): syntax, then address, then the value. -/
def resolveSrc (s : State) (tok : Token) : Except Stop Word :=
  match classifyOrRaise s tok with
  | .error e => .error e
  | .ok (.reg r) => .ok (s.reg r)
  | .ok (.imm v) => .ok v
  | .ok (.mem a) =>
    match checkAddr s a with
    | .error e => .error e
    | .ok cell => memRead s cell

/-- What a two-operand instruction makes of its operands in the order of R114: destination, its old value,
source. -/
def withOperands (s : State) (d src : Token) (f : Place → Word → Word → Pending) : Except Stop Pending :=
  match resolveDest s d with
  | .error e => .error e
  | .ok p =>
    match readPlace s p with
    | .error e => .error e
    | .ok a =>
      match resolveSrc s src with
      | .error e => .error e
      | .ok b => .ok (f p a b)

end Sys2Proof.Machine
end

