-- ==== Sys2Proof/Machine/Arithmetic.lean ====
section
/-! DEFINITION. Arithmetic: ADD, SUB, MUL and DIV on exact integers (R150 to R156). -/

namespace Sys2Proof.Machine

/-- ADD (R151). -/
def execAdd (d src : Token) (s : State) : Host.Outcome State Fault Refusal :=
  complete s (withOperands s d src (fun p a b => exactResult s.cfg.ovfMode p (a.toInt + b.toInt)))

/-- SUB (R152). -/
def execSub (d src : Token) (s : State) : Host.Outcome State Fault Refusal :=
  complete s (withOperands s d src (fun p a b => exactResult s.cfg.ovfMode p (a.toInt - b.toInt)))

/-- `if o = Mem(a): CheckAddr(a)` (R154): the check of an operand that is not used. -/
def checkUnused (s : State) (o : Operand) : Except Stop Unit :=
  match o with
  | .reg _ => .ok ()
  | .imm _ => .ok ()
  | .mem a =>
    match checkAddr s a with
    | .error e => .error e
    | .ok _ => .ok ()

/-- `NonRegisterArith(op, d, s)` (R154, D16): operand 1 classified and checked, operand 2 resolved, for DIV
the divisor checked, and nothing written. -/
def nonRegisterArith (isDiv : Bool) (s : State) (d src : Token) : Except Stop Pending :=
  match classifyOrRaise s d with
  | .error e => .error e
  | .ok o =>
    match checkUnused s o with
    | .error e => .error e
    | .ok _ =>
      match resolveSrc s src with
      | .error e => .error e
      | .ok b => if isDiv && b == 0 then .error (.raise .divZero) else .ok {}

/-- MUL (R153): computes into a register only. -/
def execMul (d src : Token) (s : State) : Host.Outcome State Fault Refusal :=
  complete s <|
    match regNamed s.cfg.regNames d with
    | none => nonRegisterArith false s d src
    | some r =>
      match resolveSrc s src with
      | .error e => .error e
      | .ok b => .ok (exactResult s.cfg.ovfMode (.reg r) ((s.reg r).toInt * b.toInt))

/-- The outcome of dividing register `r` by `b` (R155): the divisor checks, then the quotient rounded
toward zero (R156). -/
def divideReg (s : State) (r : Reg) (b : Word) : Except Stop Pending :=
  if b.toInt = 0 then .error (.raise .divZero)
  else if (s.reg r).toInt = -2147483648 ∧ b.toInt = -1 then .error (.raise .divOverflow)
  else .ok { dest := some (.reg r, wrap32 ((s.reg r).toInt.tdiv b.toInt)) }

/-- DIV (R155): computes into a register only and writes no flag. -/
def execDiv (d src : Token) (s : State) : Host.Outcome State Fault Refusal :=
  complete s <|
    match regNamed s.cfg.regNames d with
    | none => nonRegisterArith true s d src
    | some r =>
      match resolveSrc s src with
      | .error e => .error e
      | .ok b => divideReg s r b

end Sys2Proof.Machine
end

