-- ==== Sys2Proof/Machine/Compare.lean ====
section
/-! DEFINITION. Comparison: CMP. -/

namespace Sys2Proof.Machine

/-- CMP (R200): operand 1 is resolved as a destination and only read; `CR` takes the comparison, and `OF` is
not written (D21). -/
def execCmp (d src : Token) (s : State) : Host.Outcome State Fault Refusal :=
  complete s (withOperands s d src (fun _ a b => { dest := some (.reg .cr, compareValue a b) }))

end Sys2Proof.Machine
end

