-- ==== Sys2Proof/Machine/ControlTransfer.lean ====
section
/-! DEFINITION. Control transfer: label lookup, taking a jump, and JMP, JG, JL, JE (R210 to R221). -/

namespace Sys2Proof.Machine

/-- `LabelName(L)` (R81, R210, C3): `L` without one final `:`. -/
def labelName (l : Token) : Text :=
  if endsInColon l then l.dropLast else l

/-- The first token of cell `a` is `name ++ ":"` (R211). All tokens count, in both modes. -/
def definesLabel (s : State) (name : Text) (a : Nat) : Bool :=
  (tokens (cellText (s.mem.read a))).head? == some (name ++ [':'])

/-- `FindLabel(name)` (R211): the first instruction cell that defines the label. -/
def findLabel (s : State) (name : Text) : Except Stop Nat :=
  match (List.range s.instSize).find? (definesLabel s name) with
  | some a => .ok a
  | none => .error (.raise .labelNotFound)

/-- `WellFormedTarget(t)` (R221, D33): in STATIC two tokens or more, in REWRITE a space character. -/
def wellFormedTarget (mode : LabelMode) (t : Text) : Bool :=
  match mode with
  | .static => decide (2 ≤ (tokens t).length)
  | .rewrite => t.contains ' '

/-- `TakeJump(a, name)` (R213): BAD_TARGET, or an outcome that jumps to `a`. -/
def takeJump (s : State) (a : Nat) (name : Text) : Except Stop Pending :=
  if wellFormedTarget s.cfg.labelMode (cellText (s.mem.read a)) then .ok { control := .jump a name }
  else .error (.raise .badTarget)

/-- What the four jumps share (R216, R217, R220): the label is looked up first, taken or not. -/
def jump (s : State) (l : Token) (taken : Bool) : Except Stop Pending :=
  match findLabel s (labelName l) with
  | .error e => .error e
  | .ok a => if taken then takeJump s a (labelName l) else .ok {}

/-- JMP (R216): always taken. -/
def execJmp (l : Token) (s : State) : Host.Outcome State Fault Refusal :=
  complete s (jump s l true)

/-- JG (R217): taken when `CR = 1`. -/
def execJg (l : Token) (s : State) : Host.Outcome State Fault Refusal :=
  complete s (jump s l (isGreater s))

/-- JL (R218): taken when `CR = -1`. -/
def execJl (l : Token) (s : State) : Host.Outcome State Fault Refusal :=
  complete s (jump s l (isLess s))

/-- JE (R219): taken when `CR = 0`. -/
def execJe (l : Token) (s : State) : Host.Outcome State Fault Refusal :=
  complete s (jump s l (isEqual s))

end Sys2Proof.Machine
end

