-- ==== Sys2Proof/Machine/DataMovement.lean ====
section
/-! DEFINITION. Data movement: MOV. -/

namespace Sys2Proof.Machine

/-- MOV (R140): plain assignment. The destination's old value is not read. -/
def execMov (d src : Token) (s : State) : Host.Outcome State Fault Refusal :=
  complete s <|
    match resolveDest s d with
    | .error e => .error e
    | .ok p =>
      match resolveSrc s src with
      | .error e => .error e
      | .ok v => .ok { dest := some (p, v) }

end Sys2Proof.Machine
end

