-- ==== Sys2Proof/Machine/Logic.lean ====
section
/-! DEFINITION. Bitwise logic on 32-bit patterns: AND, OR and NOT (R180 to R182). -/

namespace Sys2Proof.Machine

/-- AND (R180). -/
def execAnd (d src : Token) (s : State) : Host.Outcome State Fault Refusal :=
  complete s (withOperands s d src (fun p a b => { dest := some (p, a &&& b) }))

/-- OR (R181). -/
def execOr (d src : Token) (s : State) : Host.Outcome State Fault Refusal :=
  complete s (withOperands s d src (fun p a b => { dest := some (p, a ||| b) }))

/-- NOT (R182): steps 1 and 2 of R114 only. -/
def execNot (d : Token) (s : State) : Host.Outcome State Fault Refusal :=
  complete s <|
    match resolveDest s d with
    | .error e => .error e
    | .ok p =>
      match readPlace s p with
      | .error e => .error e
      | .ok a => .ok { dest := some (p, ~~~a) }

end Sys2Proof.Machine
end

