-- ==== Sys2Proof/Machine/Dispatch.lean ====
section
/-! DEFINITION. The dispatch of `Exec(op, ops)` (R103): one arm for each instruction. -/

namespace Sys2Proof.Machine

def exec (i : Instr) (s : State) : Host.Outcome State Fault Refusal :=
  match i with
  | .mov d src => Sys2Proof.Machine.execMov d src s
  | .add d src => Sys2Proof.Machine.execAdd d src s
  | .sub d src => Sys2Proof.Machine.execSub d src s
  | .mul d src => Sys2Proof.Machine.execMul d src s
  | .div d src => Sys2Proof.Machine.execDiv d src s
  | .and d src => Sys2Proof.Machine.execAnd d src s
  | .or d src => Sys2Proof.Machine.execOr d src s
  | .not d => Sys2Proof.Machine.execNot d s
  | .cmp d src => Sys2Proof.Machine.execCmp d src s
  | .jmp l => Sys2Proof.Machine.execJmp l s
  | .jg l => Sys2Proof.Machine.execJg l s
  | .jl l => Sys2Proof.Machine.execJl l s
  | .je l => Sys2Proof.Machine.execJe l s

end Sys2Proof.Machine
end

