-- ==== Sys2Proof/Machine/Cycle.lean ====
section
/-! DEFINITION. The fetch-decode-execute cycle: the loop test, fetch, one cycle, and where a line is put so
that the next cycle fetches it. -/

namespace Sys2Proof.Machine

/-- The loop test of `Execute` (R100): why no step is enabled, or none when one is. -/
def loopEnd (s : State) : Option Fault :=
  if s.fault then some .faultHalt
  else if (s.instSize : Int) ≤ (s.reg .pc).toInt then some .normalHalt
  else none

/-- `Fetch()` (R101, R130): PC_RANGE for a negative `pc`, else the text of the cell. A `Data` cell is refused
(log 7). -/
def fetch (s : State) : Except Stop Text :=
  if (s.reg .pc).toInt < 0 then .error (.raise .pcRange)
  else
    match s.mem.read (s.reg .pc).toNat with
    | .instr t => .ok t
    | .data _ => .error (.refuse .dataFetched)

/-- `Step()` (R103), once the loop test has passed: fetch, decode, execute and commit, or take the fault. -/
def cycle (s : State) : Host.Outcome State Fault Refusal :=
  match fetch s with
  | .error e => complete s (.error e)
  | .ok t =>
    match decode s.cfg.labelMode t with
    | .error f => complete s (.error (.raise f))
    | .ok i => exec i s

/-- One turn of the loop (R100). -/
def runStep (s : State) : Host.Outcome State Fault Refusal :=
  match loopEnd s with
  | some f => .fault f
  | none => cycle s

/-- The cell the next fetch reads: `pc` when it is an address of memory, else 0. -/
def fetchCell (s : State) : Nat :=
  if 0 ≤ (s.reg .pc).toInt ∧ (s.reg .pc).toInt < s.cfg.memSize then (s.reg .pc).toNat else 0

/-- The line `t` put where the next cycle fetches, with all the fetch needs: no fault, `pc` at the cell, and
the cell inside the instruction region (log 5, log 6). -/
def placeLine (s : State) (t : Text) : State :=
  let a := fetchCell s
  let ready := { s with instSize := max s.instSize (a + 1), fault := false, fcause := .none }
  (ready.setCell a (.instr t)).setReg .pc (BitVec.ofNat 32 a)

end Sys2Proof.Machine
end

