-- ==== Sys2Proof/Machine/Step.lean ====
section
/-! DEFINITION. One step of the machine, and the host's placing of a word where the step fetches. -/

namespace Sys2Proof.Machine

/-- One step (R100, R103, R137): a next state, which for a fault differs only in `FAULT` and `FCAUSE`, or the
reason no step is enabled. -/
def step (s : State) : Host.Outcome State Fault Refusal :=
  runStep s

/-- `s` with the line that the bits `w` stand for stored where `step` fetches next (log 5, log 6). -/
def State.withFetchWord (s : State) (nbits w : Nat) : State :=
  placeLine s (wordText nbits w)

end Sys2Proof.Machine
end

