-- ==== Sys2Proof/Machine/Boundary.lean ====
section
/-! DEFINITION. The operations the host calls between runs (R270 to R283): load, execute, fault query and dump.
Construction is `State.construct`, and `clear` stands beside taking a fault in Machine/Ops.lean. -/

namespace Sys2Proof.Machine

/-! ### Load -/

/-- The pieces of a text between line feeds. -/
def splitLines (t : Text) : List Text :=
  t.splitOnP (fun c => c == '\n')

/-- A line without the carriage return of a CR LF terminator (D37). -/
def dropCarriageReturn (t : Text) : Text :=
  if t.getLast? == some '\r' then t.dropLast else t

/-- The lines of a source, each without its terminator (R70, R273, D37). A terminator ends a line, so nothing
after the last one is no line (log 11). -/
def sourceLines (source : Text) : List Text :=
  let parts := splitLines source
  let closed := (parts.dropLast).map dropCarriageReturn
  match parts.getLast? with
  | some [] => closed
  | some open_ => closed ++ [open_]
  | none => closed

/-- Line `i` in cell `a + i`, as instruction cells; every other cell `Data(0)` (R273). -/
def lineCells (a : Nat) (lines : List Text) : Memory :=
  match lines with
  | [] => []
  | t :: rest => (a, .instr t) :: lineCells (a + 1) rest

/-- The unspecified memory the `n`-th failed load leaves: any cell at each address below `MEM_SIZE` (log 9). -/
def drawnMemory (n memSize : Nat) : Memory :=
  (List.range memSize).filterMap (fun a =>
    if Config.freeCell n a = blankCell then none else some (a, Config.freeCell n a))

/-- The unspecified label table the `n`-th failed load leaves (log 9). -/
def drawnLabels (n memSize : Nat) : Labels :=
  (List.range memSize).filterMap (fun a => (Config.freeLabel n a).map (fun name => (a, name)))

/-- `TakeLoadFault(F)` (R273): `FAULT`, the first cause, and unspecified `instSize`, `M` and `LT`. The registers
and `pc` stay (R242). -/
def takeLoadFault (s : State) (f : FaultCause) : State :=
  { takeFault s f with
    instSize := Config.freeInstSize s.freeCtr % (s.cfg.memSize + 1)
    mem := drawnMemory s.freeCtr s.cfg.memSize
    labels := drawnLabels s.freeCtr s.cfg.memSize
    freeCtr := s.freeCtr + 1 }

/-- `Load(source)` (R273) of the lines of a source, or of none when it cannot be opened. It leaves the
registers and, when it succeeds, `FAULT` and `FCAUSE` alone (R278). -/
def load (source : Option (List Text)) (s : State) : State :=
  match source with
  | none => takeLoadFault s .ioOpen
  | some lines =>
    if s.cfg.memSize < lines.length then takeLoadFault s .capacity
    else { s with mem := lineCells 0 lines, instSize := lines.length, labels := [] }

/-- `Load(source)` (R273) of the text of a source. -/
def loadText (source : Option Text) (s : State) : State :=
  load (source.map sourceLines) s

/-! ### Execute -/

/-- How a call of `execute` stands after its fuel: it returned (R107), the model refused, or it still runs. -/
inductive RunEnd where
  /-- The loop stopped: a normal halt or a fault halt, and the state it left. -/
  | ended (why : Fault) (s : State)
  /-- The model gives the next step no meaning. -/
  | refused (why : Refusal) (s : State)
  /-- The fuel ran out; this is no state of the machine's own (R107, R225, log 12). -/
  | running (s : State)
deriving DecidableEq, Repr

/-- `execute()` (R100, R275) under fuel: at most `fuel` steps from the current `pc`. -/
def execute (fuel : Nat) (s : State) : RunEnd :=
  match step s with
  | .fault why => .ended why s
  | .refused why => .refused why s
  | .next s' =>
    match fuel with
    | 0 => .running s
    | n + 1 => execute n s'

/-! ### Observation -/

/-- The code of a cause (R241). -/
def causeCode (f : FaultCause) : Nat :=
  match f with
  | .none => 0
  | .ioOpen => 1
  | .capacity => 2
  | .protection => 3
  | .bounds => 4
  | .divZero => 5
  | .divOverflow => 6
  | .labelNotFound => 7
  | .badTarget => 8
  | .incorrectInstruction => 9
  | .format => 10
  | .operandSyntax => 11
  | .operandShape => 12
  | .pcRange => 13

/-- `fault()` (R281): `FAULT` and the code in `FCAUSE`. -/
def faultQuery (s : State) : Bool × Nat :=
  (s.fault, causeCode s.fcause)

/-- `dump()` (R283): nothing under a fault, else address, label if any, and cell, for every address. -/
def dump (s : State) : List (Nat × Option Text × Cell) :=
  if s.fault then []
  else (List.range s.cfg.memSize).map (fun a => (a, s.labels.find a, s.mem.read a))

end Sys2Proof.Machine
end

