-- ==== Sys2Proof/Safety.lean ====
section
/-! DEFINITION. The terms claims are stated in: what an operand resolves to, what a store leaves, what a
taken jump leaves, what a fault leaves, and the invariant of the machine. They speak of classes, addresses,
registers and cells, not of the functions the meanings are built from. -/

namespace Sys2Proof.Machine

/-! ### Operands -/

/-- The token's value is `v` (R111, R112): a register's value, a data cell inside the data region, or the
immediate itself. -/
def readsAs (s : State) (tok : Token) (v : Word) : Bool :=
  match classify s.cfg.regNames tok with
  | some (.reg r) => s.reg r == v
  | some (.mem a) =>
    decide ((s.instSize : Int) ≤ a) && decide (a < s.cfg.memSize) && s.mem.read a.toNat == .data v
  | some (.imm w) => w == v
  | none => false

/-- The signs a decimal literal may begin with, and the factor each stands for (R79). -/
def literalSigns : List (Text × Int) :=
  [([], 1), (['+'], 1), (['-'], -1)]

/-- The text is a decimal literal, of the form `[+-]?[0-9]+`, and denotes `v` in base 10 (R79). -/
def Denotes (t : Text) (v : Int) : Prop :=
  ∃ sign ∈ literalSigns, ∃ ds : List Char, ds ≠ [] ∧ (∀ c ∈ ds, '0' ≤ c ∧ c ≤ '9') ∧ t = sign.1 ++ ds ∧
    v = sign.2 * (Nat.ofDigits 10 (ds.reverse.map (fun c => c.toNat - '0'.toNat)) : Nat)

/-- The token is a destination, and `p` is the place it writes (R110, R113). -/
def writesTo (s : State) (tok : Token) (p : Place) : Bool :=
  match classify s.cfg.regNames tok with
  | some (.reg r) => p == .reg r
  | some (.mem a) =>
    decide ((s.instSize : Int) ≤ a) && decide (a < s.cfg.memSize) && p == .cell a.toNat
  | some (.imm _) => false
  | none => false

/-- The token is an operand 1 that MUL and DIV do not compute into: an immediate, or a cell inside the data
region (R154). -/
def isIdleDest (s : State) (tok : Token) : Bool :=
  match classify s.cfg.regNames tok with
  | some (.mem a) => decide ((s.instSize : Int) ≤ a) && decide (a < s.cfg.memSize)
  | some (.imm _) => true
  | some (.reg _) => false
  | none => false

/-- The registers a place stands for. -/
def placeRegs (p : Place) : List Reg :=
  match p with
  | .reg r => [r]
  | .cell _ => []

/-- The cells a place stands for. -/
def placeCells (p : Place) : List Nat :=
  match p with
  | .reg _ => []
  | .cell a => [a]

/-- The eight F2 instructions (R76). -/
def dualOperand : List (Token → Token → Instr) :=
  [.mov, .add, .sub, .mul, .div, .and, .or, .cmp]

/-- The F2 instructions whose operand 1 must be a register or a cell (R82). -/
def shapedDest : List (Token → Token → Instr) :=
  [.mov, .add, .sub, .and, .or, .cmp]

/-- The four jumps (R76). -/
def jumps : List (Token → Instr) :=
  [.jmp, .jg, .jl, .je]

/-- The conditional jumps and the value of `CR` each is taken on (R215). -/
def conditionalJumps : List ((Token → Instr) × Int) :=
  [(.jg, 1), (.jl, -1), (.je, 0)]

/-- The mnemonics of format F2 (R76). -/
def dualMnemonics : List Token :=
  [['M', 'O', 'V'], ['A', 'D', 'D'], ['S', 'U', 'B'], ['M', 'U', 'L'], ['D', 'I', 'V'], ['A', 'N', 'D'],
    ['O', 'R'], ['C', 'M', 'P']]

/-- The mnemonics of formats F1 and FJ (R76). -/
def singleMnemonics : List Token :=
  [['N', 'O', 'T'], ['J', 'M', 'P'], ['J', 'G'], ['J', 'L'], ['J', 'E']]

/-- The operand tokens an instruction classifies; a label operand is never classified (R81). -/
def operandTokens (i : Instr) : List Token :=
  match i with
  | .mov d s => [d, s]
  | .add d s => [d, s]
  | .sub d s => [d, s]
  | .mul d s => [d, s]
  | .div d s => [d, s]
  | .and d s => [d, s]
  | .or d s => [d, s]
  | .not d => [d]
  | .cmp d s => [d, s]
  | .jmp _ => []
  | .jg _ => []
  | .jl _ => []
  | .je _ => []

/-- The operand token an instruction writes, if any (R82); CMP reads its operand 1 only (R200). -/
def destToken (i : Instr) : Option Token :=
  match i with
  | .mov d _ => some d
  | .add d _ => some d
  | .sub d _ => some d
  | .mul d _ => some d
  | .div d _ => some d
  | .and d _ => some d
  | .or d _ => some d
  | .not d => some d
  | .cmp _ _ => none
  | .jmp _ => none
  | .jg _ => none
  | .jl _ => none
  | .je _ => none

/-- The instruction writes register `r` as its destination. -/
def namesDest (s : State) (i : Instr) (r : Reg) : Prop :=
  ∃ d, destToken i = some d ∧ classify s.cfg.regNames d = some (.reg r)

/-- The instruction is a jump. -/
def isJump (i : Instr) : Prop :=
  ∃ op ∈ jumps, ∃ l, i = op l

/-! ### What an instruction leaves -/

/-- Nothing but the listed registers and cells differs: the frame. -/
def OnlyChanges (s t : State) (regs : List Reg) (cells : List Nat) : Prop :=
  (∀ r, r ∉ regs → t.reg r = s.reg r) ∧
  (∀ a, a ∉ cells → t.mem.read a = s.mem.read a) ∧
  t.instSize = s.instSize ∧ t.fault = s.fault ∧ t.fcause = s.fcause ∧ t.labels = s.labels ∧
  t.cfg = s.cfg ∧ t.freeCtr = s.freeCtr

/-- `pc` holds the address after the one it held (R26). -/
def PcAdvanced (s t : State) : Prop :=
  t.reg .pc = wrap32 ((s.reg .pc).toInt + 1)

/-- Only `pc` differs, and it advanced (R26). -/
def Advances (s t : State) : Prop :=
  PcAdvanced s t ∧ OnlyChanges s t [.pc] []

/-- The place holds `v`; a `pc` destination was incremented after the write (R28). -/
def Holds (t : State) (p : Place) (v : Word) : Prop :=
  match p with
  | .reg .pc => t.reg .pc = wrap32 (v.toInt + 1)
  | .reg r => t.reg r = v
  | .cell a => t.mem.read a = .data v

/-- `v` was written to the place, `pc` advanced, and nothing else differs. -/
def Stores (s t : State) (p : Place) (v : Word) : Prop :=
  Holds t p v ∧ (p ≠ .reg .pc → PcAdvanced s t) ∧ OnlyChanges s t (.pc :: placeRegs p) (placeCells p)

/-- The exact result `e` raises the overflow flag (R150). -/
def Overflowing (s : State) (e : Int) : Prop :=
  s.cfg.ovfMode = .exact ∧ ¬ (-2147483648 ≤ e ∧ e ≤ 2147483647)

/-- `e` is the exact result of the instruction, an ADD, SUB or MUL, on the values its operands read as (R150). -/
def ExactResultOf (s : State) (i : Instr) (e : Int) : Prop :=
  ∃ d src a b, readsAs s d a = true ∧ readsAs s src b = true ∧
    (i = .add d src ∧ e = a.toInt + b.toInt ∨ i = .sub d src ∧ e = a.toInt - b.toInt ∨
      i = .mul d src ∧ e = a.toInt * b.toInt)

/-- The exact result `e` of ADD, SUB or MUL was stored wrapped, with `OF` as R150 and R104 say: 1 on overflow,
whatever was stored in it, and else untouched. -/
def StoresExact (s t : State) (p : Place) (e : Int) : Prop :=
  (Overflowing s e →
    (p ≠ .reg .of → Holds t p (wrap32 e)) ∧ t.reg .of = wrap32 1 ∧ (p ≠ .reg .pc → PcAdvanced s t) ∧
      OnlyChanges s t (.pc :: .of :: placeRegs p) (placeCells p)) ∧
  (¬ Overflowing s e → Stores s t p (wrap32 e))

/-- The outcome is the state `s` with the fault `f` taken and nothing else changed (R105, R243). -/
def Faults (o : Host.Outcome State Fault Refusal) (s : State) (f : FaultCause) : Prop :=
  o = .next { s with fault := true, fcause := f }

/-! ### Jumps -/

/-- Cell `a` is the first instruction cell whose first token is `name:` (R211). -/
def firstLabel (s : State) (name : Text) (a : Nat) : Bool :=
  decide (a < s.instSize) && (tokens (cellText (s.mem.read a))).head? == some (name ++ [':']) &&
    (List.range a).all (fun b => (tokens (cellText (s.mem.read b))).head? != some (name ++ [':']))

/-- No instruction cell has the first token `name:` (R211). -/
def noLabel (s : State) (name : Text) : Bool :=
  (List.range s.instSize).all (fun b => (tokens (cellText (s.mem.read b))).head? != some (name ++ [':']))

/-- The text of a jump's target is well formed (R221): in STATIC two tokens or more, in REWRITE a space. -/
def targetOk (s : State) (t : Text) : Bool :=
  match s.cfg.labelMode with
  | .static => decide (2 ≤ (tokens t).length)
  | .rewrite => t.any (fun c => c == ' ')

/-- A jump to cell `a`, holding the text `u`, by the label `name` was taken (R213): `pc` is `a`, the label
table names `a`, in REWRITE the cell lost its text up to the first space, and nothing else differs. -/
def JumpsTo (s t : State) (a : Nat) (name u : Text) : Prop :=
  (a < 2147483648 → (t.reg .pc).toInt = a) ∧
  (∀ r, r ≠ .pc → t.reg r = s.reg r) ∧
  t.labels.find a = some ((s.labels.find a).getD name) ∧
  (∀ b, b ≠ a → t.labels.find b = s.labels.find b) ∧
  (s.cfg.labelMode = .static → ∀ b, t.mem.read b = s.mem.read b) ∧
  (s.cfg.labelMode = .rewrite →
    (∃ before after, u = before ++ ' ' :: after ∧ ' ' ∉ before ∧ t.mem.read a = .instr after) ∧
      ∀ b, b ≠ a → t.mem.read b = s.mem.read b) ∧
  t.instSize = s.instSize ∧ t.fault = s.fault ∧ t.fcause = s.fcause ∧ t.cfg = s.cfg ∧ t.freeCtr = s.freeCtr

/-! ### The invariant -/

/-- The instruction region holds instruction cells and the rest data (R52). -/
def Regions (s : State) : Prop :=
  (∀ a, a < s.instSize → ∃ t, s.mem.read a = .instr t) ∧
  (∀ a, s.instSize ≤ a → ∃ v, s.mem.read a = .data v)

/-- What holds of every state the host and the machine produce: the canonical forms of memory and label
table with every address below `MEM_SIZE` (R50), `instSize` in its range (R30), a cause exactly when the flag
is set (R31, R32), and the two regions while a program can run (R52; after `clear` no instruction runs, R272,
and after a failed load memory is unspecified, R273). -/
def MachineInv (s : State) : Prop :=
  Memory.wf s.mem = true ∧ addressesBelow s.cfg.memSize s.mem = true ∧
  rising s.labels = true ∧ addressesBelow s.cfg.memSize s.labels = true ∧
  s.instSize ≤ s.cfg.memSize ∧
  (s.fault = true ↔ s.fcause ≠ .none) ∧
  (s.fault = false → 0 < s.instSize → Regions s)

end Sys2Proof.Machine
end

