-- ==== Sys2Proof/Certificates/Slice0/Obligations.lean ====
section
/-! DEFINITION. The statements about the machine for the provers, each with the rule of spec/ it rests on. Free
values (log 9, log 10) are never assumed to be anything. -/

open Sys2Proof Sys2Proof.Machine

/-! ### Encoding -/

/-- R72, R76, R77, R84: in both modes the decoder reads a well-formed instruction back from its line. -/
def Obligations.DecodeInvertsEncode : Prop :=
  ∀ (mode : LabelMode) (i : Instr), Instr.wf i = true → decode mode (encode i) = .ok i

/-- R74, R75: a label before an instruction is skipped in STATIC and is an incorrect instruction in REWRITE. -/
def Obligations.LabelPrefixByMode : Prop :=
  ∀ (name : Text) (i : Instr), Token.wf (name ++ [':']) = true → Instr.wf i = true →
    decode .static (name ++ [':'] ++ ' ' :: encode i) = .ok i ∧
      decode .rewrite (name ++ [':'] ++ ' ' :: encode i) = .error .incorrectInstruction

/-- R88: the worked decode of each format in STATIC, with the classes of the operands and the label name. -/
def Obligations.WorkedDecodes : Prop :=
  decode .static "MOV BEN , 24".toList = .ok (.mov "BEN".toList "24".toList) ∧
  classify RegNames.standard "BEN".toList = some (.reg .ben) ∧
  classify RegNames.standard "24".toList = some (.imm 24) ∧
  decode .static "loop:  ADD [12] , AYB".toList = .ok (.add "[12]".toList "AYB".toList) ∧
  classify RegNames.standard "[12]".toList = some (.mem 12) ∧
  classify RegNames.standard "AYB".toList = some (.reg .ayb) ∧
  decode .static "NOT GIM".toList = .ok (.not "GIM".toList) ∧
  decode .static "JE loop:".toList = .ok (.je "loop:".toList) ∧
  labelName "loop:".toList = "loop".toList ∧
  tokens "MOV BEN, 24".toList = ["MOV".toList, "BEN,".toList, "24".toList] ∧
  decode .static "MOV BEN, 24".toList = .error .format

/-- R77: INCORRECT_INSTRUCTION exactly for no token or a first token that is no mnemonic, FORMAT exactly for a
mnemonic with the wrong tokens, and an instruction exactly from its own tokens. -/
def Obligations.DecoderChecks : Prop :=
  ∀ k : List Token,
    (decodeTokens k = .error .incorrectInstruction ↔
      k = [] ∨ ∃ op rest, k = op :: rest ∧ op ∉ dualMnemonics ∧ op ∉ singleMnemonics) ∧
    (decodeTokens k = .error .format ↔
      ∃ op rest, k = op :: rest ∧
        ((op ∈ dualMnemonics ∧ (k.length ≠ 4 ∨ k[2]? ≠ some comma)) ∨
          (op ∈ singleMnemonics ∧ k.length ≠ 2))) ∧
    (∀ i, decodeTokens k = .ok i ↔ k = encodeTokens i)

/-- R78 to R80, R83: under admitted register names every spelled operand classifies as itself. -/
def Obligations.SpelledOperandClassifies : Prop :=
  ∀ (names : RegNames) (o : Operand), regNamesAdmitted names = true → Operand.wf o = true →
    classify names (spellOperand names o) = some o

/-- R78, R79: every decimal literal, signed or not and with leading zeros or not, is an immediate exactly in the
`int32` range and else no operand; a token that is no literal, no register name and not in `[ ]` is no operand. -/
def Obligations.LiteralRange : Prop :=
  ∀ (names : RegNames) (tok : Token),
    (∀ v, regNamesAdmitted names = true → Denotes tok v →
      classify names tok =
        if -2147483648 ≤ v ∧ v ≤ 2147483647 then some (.imm (wrap32 v)) else none) ∧
    ((∀ v, ¬ Denotes tok v) → regNamed names tok = none →
      ¬ (tok.head? = some '[' ∧ tok.getLast? = some ']') → classify names tok = none)

/-- R80: a bracketed token of another length than 3 or 4 is no operand. -/
def Obligations.BracketLength : Prop :=
  ∀ (names : RegNames) (tok : Token), regNamed names tok = none → tok.head? = some '[' →
    tok.length ≠ 3 → tok.length ≠ 4 → classify names tok = none

/-! ### Reset and the host's operations -/

/-- R270: what construction leaves, at every parameter, and that nothing runs. That the model's reset state is
construction at the defaults of R8 is the model's choice (log 1). -/
def Obligations.ConstructionZeroes : Prop :=
  (∀ cfg : Config,
    (∀ r, (State.construct cfg).reg r = 0) ∧ (State.construct cfg).instSize = 0 ∧
    (State.construct cfg).fault = false ∧ (State.construct cfg).fcause = .none ∧
    (State.construct cfg).labels = [] ∧ (∀ a, (State.construct cfg).mem.read a = .data 0) ∧
    step (State.construct cfg) = .fault .normalHalt) ∧
  State.reset = State.construct Config.standard ∧ Config.standard.memSize = 32

/-- R271: what `clear` resets and what it leaves. -/
def Obligations.ClearResets : Prop :=
  ∀ s : State,
    (∀ r, (clear s).reg r = 0) ∧ (clear s).instSize = 0 ∧ (clear s).fault = false ∧
    (clear s).fcause = .none ∧ (clear s).mem = s.mem ∧ (clear s).labels = s.labels ∧ (clear s).cfg = s.cfg

/-- R272: after `clear`, execute runs nothing. -/
def Obligations.ClearedRunsNothing : Prop :=
  ∀ (s : State) (n : Nat), execute n (clear s) = .ended .normalHalt (clear s)

/-- R273: a load that succeeds sets every cell, `instSize` and the label table, and nothing else. -/
def Obligations.LoadPlacesLines : Prop :=
  ∀ (s : State) (lines : List Text), lines.length ≤ s.cfg.memSize →
    (∀ a, (load (some lines) s).mem.read a =
      match lines[a]? with
      | some t => .instr t
      | none => .data 0) ∧
    (load (some lines) s).instSize = lines.length ∧ (load (some lines) s).labels = [] ∧
    (∀ r, (load (some lines) s).reg r = s.reg r) ∧ (load (some lines) s).fault = s.fault ∧
    (load (some lines) s).fcause = s.fcause ∧ (load (some lines) s).cfg = s.cfg

/-- R273, R274: a load that fails sets `FAULT` and the first cause and leaves the registers; `instSize` stays in
its range; execute then runs nothing and the dump is empty, whatever was drawn for the rest (log 9). -/
def Obligations.FailedLoadLatches : Prop :=
  ∀ (s : State) (source : Option (List Text)) (f : FaultCause),
    (source = none ∧ f = .ioOpen ∨
      ∃ lines, source = some lines ∧ s.cfg.memSize < lines.length ∧ f = .capacity) →
    (load source s).fault = true ∧ (load source s).fcause = (if s.fault then s.fcause else f) ∧
    (∀ r, (load source s).reg r = s.reg r) ∧ (load source s).instSize ≤ s.cfg.memSize ∧
    (∀ n, execute n (load source s) = .ended .faultHalt (load source s)) ∧ dump (load source s) = []

/-- R283: under a fault nothing; else one record for each address, in order: address, label, cell. -/
def Obligations.DumpRecords : Prop :=
  ∀ s : State,
    (s.fault = true → dump s = []) ∧
    (s.fault = false → (dump s).length = s.cfg.memSize ∧
      ∀ a, a < s.cfg.memSize → (dump s)[a]? = some (a, s.labels.find a, s.mem.read a))

/-- R281, R241: the fault query, and the code of each cause. -/
def Obligations.FaultQueryCodes : Prop :=
  (∀ s : State, faultQuery s = (s.fault, causeCode s.fcause)) ∧
  [FaultCause.none, .ioOpen, .capacity, .protection, .bounds, .divZero, .divOverflow, .labelNotFound,
    .badTarget, .incorrectInstruction, .format, .operandSyntax, .operandShape, .pcRange].map causeCode =
    [0, 1, 2, 3, 4, 5, 6, 7, 8, 9, 10, 11, 12, 13]

/-- R107: a run that ended is a normal halt, with `FAULT = 0` and `pc >= instSize`, or a fault halt. -/
def Obligations.RunEndKinds : Prop :=
  ∀ (n : Nat) (s t : State) (why : Fault), execute n s = .ended why t →
    (why = .normalHalt ∧ t.fault = false ∧ (t.instSize : Int) ≤ (t.reg .pc).toInt) ∨
      (why = .faultHalt ∧ t.fault = true)

/-- R107, R275: more fuel does not change how a run ended, and from its end nothing more runs. -/
def Obligations.RunEndIsFinal : Prop :=
  ∀ (n : Nat) (s t : State) (why : Fault), execute n s = .ended why t →
    ∀ k, execute (n + k) s = .ended why t ∧ execute k t = .ended why t

/-! ### The step -/

/-- R100 to R103: with `FAULT = 0` and `pc` in the instruction region, the step is the instruction its cell's
text decodes to. The step adds nothing around it: `pc` moves in the instruction's own commit (R104). -/
def Obligations.StepRunsDecoded : Prop :=
  ∀ (s : State) (t : Text) (i : Instr), s.fault = false → 0 ≤ (s.reg .pc).toInt →
    (s.reg .pc).toInt < s.instSize → s.mem.read (s.reg .pc).toInt.toNat = .instr t →
    decode s.cfg.labelMode t = .ok i → step s = exec i s

/-- R77, R103, R243: a text that does not decode raises its fault. -/
def Obligations.StepTakesDecodeFault : Prop :=
  ∀ (s : State) (t : Text) (f : FaultCause), s.fault = false → 0 ≤ (s.reg .pc).toInt →
    (s.reg .pc).toInt < s.instSize → s.mem.read (s.reg .pc).toInt.toNat = .instr t →
    decode s.cfg.labelMode t = .error f → Faults (step s) s f

/-- R29, R101: a fetch with a negative `pc` raises PC_RANGE. -/
def Obligations.NegativePcFaults : Prop :=
  ∀ s : State, s.fault = false → (s.reg .pc).toInt < 0 → Faults (step s) s .pcRange

/-- R100, R107, R137: no step is enabled when `FAULT = 1`, nor when `pc >= instSize`. -/
def Obligations.NoStepAfterEnd : Prop :=
  ∀ s : State,
    (s.fault = true → step s = .fault .faultHalt) ∧
    (s.fault = false → (s.instSize : Int) ≤ (s.reg .pc).toInt → step s = .fault .normalHalt)

/-- The model's own interface (log 5, log 6): a word placed where the step fetches is the instruction run. -/
def Obligations.PlacedWordRuns : Prop :=
  ∀ (s : State) (nbits w : Nat) (i : Instr), decode s.cfg.labelMode (wordText nbits w) = .ok i →
    step (s.withFetchWord nbits w) = exec i (s.withFetchWord nbits w)

/-- R52, R137: in a state with the invariant every enabled step answers a next state: no refusal is reached. -/
def Obligations.EnabledStepCompletes : Prop :=
  ∀ s : State, MachineInv s → s.fault = false → (s.reg .pc).toInt < s.instSize → ∃ t, step s = .next t

/-- R30 to R32, R50, R52: every step keeps the invariant. -/
def Obligations.StepKeepsInv : Prop :=
  ∀ s t : State, MachineInv s → step s = .next t → MachineInv t

/-- R36, R270: the constructed machine has the invariant, at every parameter. -/
def Obligations.ConstructionHasInv : Prop :=
  (∀ cfg : Config, MachineInv (State.construct cfg)) ∧ MachineInv State.reset

/-- R271 to R274: `clear` and load, whether it succeeds or fails, keep the invariant. -/
def Obligations.HostKeepsInv : Prop :=
  ∀ s : State, MachineInv s → MachineInv (clear s) ∧ ∀ source, MachineInv (load source s)

/-- R137, R277: whatever is loaded into a constructed machine, execute never meets a state the model refuses. -/
def Obligations.LoadedRunNeverRefused : Prop :=
  ∀ (cfg : Config) (source : Option (List Text)) (n : Nat) (why : Refusal) (t : State),
    execute n (load source (State.construct cfg)) ≠ .refused why t

/-- R105, R243: a step that leaves `FAULT` set differs from the state before it only in `FAULT` and `FCAUSE`. -/
def Obligations.FaultsArePrecise : Prop :=
  ∀ s t : State, step s = .next t → t.fault = true →
    t = { s with fault := true, fcause := t.fcause } ∧ t.fcause ≠ .none

/-! ### What no instruction does -/

/-- R30 to R32, R37: no instruction writes `instSize` or a parameter, clears `FAULT`, or changes a recorded cause. -/
def Obligations.UnwritableState : Prop :=
  ∀ (i : Instr) (s t : State), exec i s = .next t →
    t.instSize = s.instSize ∧ t.cfg = s.cfg ∧ t.freeCtr = s.freeCtr ∧
    (s.fault = true → t.fault = true ∧ t.fcause = s.fcause)

/-- R35, R65: in STATIC no instruction changes an instruction cell. -/
def Obligations.StaticCodeUnchanged : Prop :=
  ∀ (i : Instr) (s t : State) (a : Nat), s.cfg.labelMode = .static → exec i s = .next t →
    a < s.instSize → t.mem.read a = s.mem.read a

/-- R35, R65, R214: in REWRITE the only instruction cell that changes is the target of a taken jump, which loses
its text up to the first space. -/
def Obligations.RewriteStripsTargetOnly : Prop :=
  ∀ (i : Instr) (s t : State) (a : Nat), s.cfg.labelMode = .rewrite → exec i s = .next t →
    a < s.instSize → t.mem.read a ≠ s.mem.read a →
    isJump i ∧ t.reg .pc = pcOfCell a ∧
      ∃ before after, s.mem.read a = .instr (before ++ ' ' :: after) ∧ ' ' ∉ before ∧
        t.mem.read a = .instr after

/-- R23: an instruction that does not name AYB, BEN, GIM or DA neither reads nor writes it: with another value
in it, the instruction does the same and leaves that value. -/
def Obligations.UnnamedRegistersInert : Prop :=
  ∀ (i : Instr) (s : State) (r : Reg) (v : Word), r ∈ [Reg.ayb, .ben, .gim, .da] →
    (∀ tok ∈ operandTokens i, regNamed s.cfg.regNames tok ≠ some r) →
    exec i (s.setReg r v) =
      match exec i s with
      | .next t => .next (t.setReg r v)
      | .fault why => .fault why
      | .refused why => .refused why

/-- R24: `CR` changes only by CMP, to -1, 0 or +1, or as the named destination. -/
def Obligations.ComparisonWriters : Prop :=
  ∀ (i : Instr) (s t : State), exec i s = .next t → t.reg .cr ≠ s.reg .cr →
    namesDest s i .cr ∨
      ∃ d src, i = .cmp d src ∧
        ((t.reg .cr).toInt = -1 ∨ (t.reg .cr).toInt = 0 ∨ (t.reg .cr).toInt = 1)

/-- R25, R150: `OF` changes only as the named destination, or to 1 by an ADD, SUB or MUL that overflows: in EXACT
its exact result is no `int32`. -/
def Obligations.OverflowWriters : Prop :=
  ∀ (i : Instr) (s t : State), exec i s = .next t → t.reg .of ≠ s.reg .of →
    namesDest s i .of ∨
      (t.reg .of = 1 ∧ ∃ e, ExactResultOf s i e ∧ Overflowing s e)

/-- R26, R28, R212: after an instruction `pc` kept its value under a fault, or advanced, or was the named
destination, or is an instruction cell by a jump. -/
def Obligations.ProgramCounterMoves : Prop :=
  ∀ (i : Instr) (s t : State), s.fault = false → exec i s = .next t →
    (t.fault = true ∧ t.reg .pc = s.reg .pc) ∨
    (t.fault = false ∧
      (PcAdvanced s t ∨ namesDest s i .pc ∨ (isJump i ∧ ∃ a, a < s.instSize ∧ t.reg .pc = pcOfCell a)))

/-! ### Data movement, arithmetic, logic, comparison -/

/-- R140: MOV completes on every destination and source it may have, stores the source, and changes nothing
else. -/
def Obligations.MovStores : Prop :=
  ∀ (s : State) (d src : Token) (p : Place) (v : Word), Memory.wf s.mem = true →
    writesTo s d p = true → readsAs s src v = true →
    ∃ t, exec (.mov d src) s = .next t ∧ Stores s t p v

/-- R150 to R152: ADD and SUB complete and store the wrapped exact sum or difference, with the overflow rule. -/
def Obligations.AddSubStore : Prop :=
  ∀ (s : State) (d src : Token) (p : Place) (a b : Word), Memory.wf s.mem = true →
    writesTo s d p = true → readsAs s d a = true → readsAs s src b = true →
    (∃ t, exec (.add d src) s = .next t ∧ StoresExact s t p (a.toInt + b.toInt)) ∧
    (∃ t, exec (.sub d src) s = .next t ∧ StoresExact s t p (a.toInt - b.toInt))

/-- R150, R153: MUL into a register completes and stores the wrapped exact product, with the overflow rule. -/
def Obligations.MulStores : Prop :=
  ∀ (s : State) (d src : Token) (r : Reg) (b : Word), Memory.wf s.mem = true →
    writesTo s d (.reg r) = true → readsAs s src b = true →
    ∃ t, exec (.mul d src) s = .next t ∧ StoresExact s t (.reg r) ((s.reg r).toInt * b.toInt)

/-- R155, R156: DIV into a register completes on a divisor that is not 0, less the one quotient outside `int32`,
and stores the quotient rounded toward zero. -/
def Obligations.DivStores : Prop :=
  ∀ (s : State) (d src : Token) (r : Reg) (b : Word), Memory.wf s.mem = true →
    writesTo s d (.reg r) = true → readsAs s src b = true → b.toInt ≠ 0 →
    ¬ ((s.reg r).toInt = -2147483648 ∧ b.toInt = -1) →
    ∃ t q, exec (.div d src) s = .next t ∧ Stores s t (.reg r) q ∧
      q.toInt = (s.reg r).toInt.sign * b.toInt.sign * (((s.reg r).toInt.natAbs / b.toInt.natAbs : Nat) : Int)

/-- R155: DIV into a register raises DIV_ZERO on divisor 0 and DIV_OVERFLOW on -2147483648 by -1, with no write. -/
def Obligations.DivFaults : Prop :=
  ∀ (s : State) (d src : Token) (r : Reg) (b : Word), s.fault = false →
    writesTo s d (.reg r) = true → readsAs s src b = true →
    (b.toInt = 0 → Faults (exec (.div d src) s) s .divZero) ∧
    ((s.reg r).toInt = -2147483648 ∧ b.toInt = -1 → Faults (exec (.div d src) s) s .divOverflow)

/-- R154: MUL and DIV on an immediate or a data cell as operand 1 check their operands and write nothing; DIV
still raises DIV_ZERO. -/
def Obligations.MulDivIdle : Prop :=
  ∀ (s : State) (d src : Token) (b : Word), isIdleDest s d = true → readsAs s src b = true →
    (∃ t, exec (.mul d src) s = .next t ∧ Advances s t) ∧
    (b.toInt ≠ 0 → ∃ t, exec (.div d src) s = .next t ∧ Advances s t) ∧
    (b.toInt = 0 → s.fault = false → Faults (exec (.div d src) s) s .divZero)

/-- R180, R181: AND and OR complete and store the bitwise result. -/
def Obligations.AndOrStore : Prop :=
  ∀ (s : State) (d src : Token) (p : Place) (a b : Word), Memory.wf s.mem = true →
    writesTo s d p = true → readsAs s d a = true → readsAs s src b = true →
    (∃ t v, exec (.and d src) s = .next t ∧ Stores s t p v ∧
      ∀ k, k < 32 → v.getLsbD k = (a.getLsbD k && b.getLsbD k)) ∧
    (∃ t v, exec (.or d src) s = .next t ∧ Stores s t p v ∧
      ∀ k, k < 32 → v.getLsbD k = (a.getLsbD k || b.getLsbD k))

/-- R182: NOT completes and stores the complement, which is `-a - 1`. -/
def Obligations.NotStores : Prop :=
  ∀ (s : State) (d : Token) (p : Place) (a : Word), Memory.wf s.mem = true →
    writesTo s d p = true → readsAs s d a = true →
    ∃ t v, exec (.not d) s = .next t ∧ Stores s t p v ∧ v.toInt = -a.toInt - 1 ∧
      ∀ k, k < 32 → v.getLsbD k = !a.getLsbD k

/-- R200: CMP completes and sets `CR` to the sign of the exact difference, and changes nothing else. -/
def Obligations.CmpSetsSign : Prop :=
  ∀ (s : State) (d src : Token) (p : Place) (a b : Word), Memory.wf s.mem = true →
    writesTo s d p = true → readsAs s d a = true → readsAs s src b = true →
    ∃ t c, exec (.cmp d src) s = .next t ∧ Stores s t (.reg .cr) c ∧ c.toInt = (a.toInt - b.toInt).sign

/-- R201: after a CMP that does not fault, and in every state with the `CR` it left, so until `CR` is written again,
`CR` is -1, 0 or +1, exactly one of the conditions of JG, JL and JE holds, and the jump it belongs to is JMP. -/
def Obligations.CmpOneCondition : Prop :=
  ∀ (s t u : State) (d src : Token), exec (.cmp d src) s = .next t → t.fault = false →
    u.reg .cr = t.reg .cr →
    ((u.reg .cr).toInt = -1 ∨ (u.reg .cr).toInt = 0 ∨ (u.reg .cr).toInt = 1) ∧
    ((isGreater u = true ∧ isLess u = false ∧ isEqual u = false) ∨
      (isGreater u = false ∧ isLess u = true ∧ isEqual u = false) ∨
      (isGreater u = false ∧ isLess u = false ∧ isEqual u = true)) ∧
    ∀ l, (isGreater u = true → exec (.jg l) u = exec (.jmp l) u) ∧
      (isLess u = true → exec (.jl l) u = exec (.jmp l) u) ∧
      (isEqual u = true → exec (.je l) u = exec (.jmp l) u)

/-- R152: SUB of an immediate undoes ADD of it, on every register but `PC` and `OF`. -/
def Obligations.SubUndoesAdd : Prop :=
  ∀ (s : State) (d src : Token) (r : Reg) (v : Word), r ≠ .pc → r ≠ .of →
    classify s.cfg.regNames d = some (.reg r) → classify s.cfg.regNames src = some (.imm v) →
    ∃ t u, exec (.add d src) s = .next t ∧ exec (.sub d src) t = .next u ∧ u.reg r = s.reg r

/-- R182: NOT twice restores every register but `PC`. -/
def Obligations.NotTwiceRestores : Prop :=
  ∀ (s : State) (d : Token) (r : Reg), r ≠ .pc → classify s.cfg.regNames d = some (.reg r) →
    ∃ t u, exec (.not d) s = .next t ∧ exec (.not d) t = .next u ∧ u.reg r = s.reg r

/-- R28, R182: NOT of `PC` at address p leaves `pc` at -p. -/
def Obligations.NotPcNegates : Prop :=
  ∀ (s : State) (d : Token), classify s.cfg.regNames d = some (.reg .pc) →
    ∃ t, exec (.not d) s = .next t ∧ t.reg .pc = wrap32 (-(s.reg .pc).toInt)

/-! ### Operand faults -/

/-- R53, R110, R154, R245: operand 1 below `instSize` raises PROTECTION and at or above `MEM_SIZE` BOUNDS, for
every opcode, whatever operand 2 is. -/
def Obligations.DestAddressFaults : Prop :=
  ∀ (s : State) (d src : Token) (a : Int), s.fault = false → classify s.cfg.regNames d = some (.mem a) →
    (a < s.instSize →
      (∀ op ∈ dualOperand, Faults (exec (op d src) s) s .protection) ∧
        Faults (exec (.not d) s) s .protection) ∧
    ((s.instSize : Int) ≤ a → (s.cfg.memSize : Int) ≤ a →
      (∀ op ∈ dualOperand, Faults (exec (op d src) s) s .bounds) ∧
        Faults (exec (.not d) s) s .bounds)

/-- R53, R112, R154: the same for operand 2, once operand 1 is resolved, and for MUL and DIV on an operand 1 they do
not write. -/
def Obligations.SourceAddressFaults : Prop :=
  ∀ (s : State) (d src : Token) (a : Int) (f : FaultCause), s.fault = false →
    classify s.cfg.regNames src = some (.mem a) →
    (a < s.instSize ∧ f = .protection ∨
      (s.instSize : Int) ≤ a ∧ (s.cfg.memSize : Int) ≤ a ∧ f = .bounds) →
    (∀ p v, writesTo s d p = true → readsAs s d v = true →
      ∀ op ∈ dualOperand, Faults (exec (op d src) s) s f) ∧
    (isIdleDest s d = true →
      Faults (exec (.mul d src) s) s f ∧ Faults (exec (.div d src) s) s f)

/-- R82, R110: an immediate operand 1 raises OPERAND_SHAPE, for every opcode but MUL, DIV and the jumps. -/
def Obligations.ImmediateDestFaults : Prop :=
  ∀ (s : State) (d src : Token) (v : Word), s.fault = false → classify s.cfg.regNames d = some (.imm v) →
    (∀ op ∈ shapedDest, Faults (exec (op d src) s) s .operandShape) ∧
      Faults (exec (.not d) s) s .operandShape

/-- R78, R110, R154: an operand 1 of no class raises OPERAND_SYNTAX, for every opcode, whatever operand 2 is. -/
def Obligations.DestSyntaxFaults : Prop :=
  ∀ (s : State) (d src : Token), s.fault = false → classify s.cfg.regNames d = none →
    (∀ op ∈ dualOperand, Faults (exec (op d src) s) s .operandSyntax) ∧
      Faults (exec (.not d) s) s .operandSyntax

/-- R78, R112, R154: an operand 2 of no class raises OPERAND_SYNTAX once operand 1 is resolved. -/
def Obligations.SourceSyntaxFaults : Prop :=
  ∀ (s : State) (d src : Token), s.fault = false → classify s.cfg.regNames src = none →
    (∀ p v, writesTo s d p = true → readsAs s d v = true →
      ∀ op ∈ dualOperand, Faults (exec (op d src) s) s .operandSyntax) ∧
    (isIdleDest s d = true →
      Faults (exec (.mul d src) s) s .operandSyntax ∧ Faults (exec (.div d src) s) s .operandSyntax)

/-! ### Jumps -/

/-- R211, R213, R214, R216: JMP completes at the first cell that defines its label, when that cell is well formed. -/
def Obligations.JmpTaken : Prop :=
  ∀ (s : State) (l : Token) (a : Nat) (u : Text), rising s.labels = true →
    firstLabel s (labelName l) a = true → s.mem.read a = .instr u → targetOk s u = true →
    ∃ t, exec (.jmp l) s = .next t ∧ JumpsTo s t a (labelName l) u

/-- R213, R215, R217 to R219: JG, JL and JE complete by jumping when `CR` is 1, -1 and 0. -/
def Obligations.ConditionalJumpTaken : Prop :=
  ∀ (s : State) (l : Token) (a : Nat) (u : Text), rising s.labels = true →
    firstLabel s (labelName l) a = true → s.mem.read a = .instr u → targetOk s u = true →
    ∀ e ∈ conditionalJumps, (s.reg .cr).toInt = e.2 →
      ∃ t, exec (e.1 l) s = .next t ∧ JumpsTo s t a (labelName l) u

/-- R220: a conditional jump that is not taken still raises LABEL_NOT_FOUND when its label is missing, and else
only advances `pc`, whatever its target cell is. -/
def Obligations.ConditionalJumpNotTaken : Prop :=
  ∀ (s : State) (l : Token), ∀ e ∈ conditionalJumps, (s.reg .cr).toInt ≠ e.2 →
    (noLabel s (labelName l) = true → s.fault = false → Faults (exec (e.1 l) s) s .labelNotFound) ∧
    (∀ a, firstLabel s (labelName l) a = true → ∃ t, exec (e.1 l) s = .next t ∧ Advances s t)

/-- R211, R216 to R219: every jump to a label no cell defines raises LABEL_NOT_FOUND. -/
def Obligations.MissingLabelFaults : Prop :=
  ∀ (s : State) (l : Token), s.fault = false → noLabel s (labelName l) = true →
    ∀ op ∈ jumps, Faults (exec (op l) s) s .labelNotFound

/-- R213, R221: a taken jump to a malformed cell raises BAD_TARGET. -/
def Obligations.BadTargetFaults : Prop :=
  ∀ (s : State) (l : Token) (a : Nat) (u : Text), s.fault = false →
    firstLabel s (labelName l) a = true → s.mem.read a = .instr u → targetOk s u = false →
    Faults (exec (.jmp l) s) s .badTarget ∧
      ∀ e ∈ conditionalJumps, (s.reg .cr).toInt = e.2 → Faults (exec (e.1 l) s) s .badTarget

/-- R81: a jump operand with and without one final colon is the same instruction. -/
def Obligations.JumpSpellingsAgree : Prop :=
  ∀ (s : State) (name : Token), endsInColon name = false →
    ∀ op ∈ jumps, exec (op (name ++ [':'])) s = exec (op name) s

/-- R65, R102, R214: in REWRITE the fetch after a jump sees what follows the first space of the target's text (its
label is still there when the text begins with a space). -/
def Obligations.NextFetchSeesStripped : Prop :=
  ∀ (s : State) (l : Token) (a : Nat) (before after : Text), s.cfg.labelMode = .rewrite →
    firstLabel s (labelName l) a = true → s.mem.read a = .instr (before ++ ' ' :: after) → ' ' ∉ before →
    a < 2147483648 → ∃ t, exec (.jmp l) s = .next t ∧ fetch t = .ok after

/-! ### Bracketed tokens -/

/-- R78 to R80, C7: `[N]` with N of one or two characters is memory-indirect exactly when N is a decimal literal,
signed or not and with a leading zero or not, at the address N denotes; else it is no operand. -/
def Obligations.BracketedAddress : Prop :=
  ∀ (names : RegNames) (n : Text), n.length = 1 ∨ n.length = 2 →
    (∀ v, regNamesAdmitted names = true → Denotes n v → classify names ('[' :: n ++ [']']) = some (.mem v)) ∧
    ((∀ v, ¬ Denotes n v) → regNamed names ('[' :: n ++ [']']) = none →
      classify names ('[' :: n ++ [']']) = none)
end

