-- ==== Sys2Proof/Laws/Memory.lean ====
section
/-! SUPPORT. The laws of memory and of the label table: read after write, the canonical form, the bound of the
addresses. -/

namespace Sys2Proof.Machine

/-! ### Rising lists -/

@[simp] theorem rising_nil {α : Type} : rising ([] : List (Nat × α)) = true := rfl

@[simp] theorem rising_singleton {α : Type} (e : Nat × α) : rising [e] = true := rfl

/-- A rising list is its head below every later address, and a rising tail. -/
theorem rising_cons_iff {α : Type} (a : Nat) (x : α) (l : List (Nat × α)) :
    rising ((a, x) :: l) = true ↔ (∀ e ∈ l, a < e.1) ∧ rising l = true := by
  induction l generalizing a x with
  | nil => simp [rising]
  | cons e rest ih =>
    obtain ⟨b, y⟩ := e
    have hb := ih b y
    constructor
    · intro h
      simp only [rising, Bool.and_eq_true, decide_eq_true_eq] at h
      refine ⟨?_, h.2⟩
      intro e he
      rcases List.mem_cons.mp he with rfl | he
      · exact h.1
      · exact lt_trans h.1 ((hb.mp h.2).1 e he)
    · rintro ⟨h1, h2⟩
      simp only [rising, Bool.and_eq_true, decide_eq_true_eq]
      exact ⟨h1 (b, y) (List.mem_cons_self ..), h2⟩

/-! ### The canonical form of memory -/

@[simp] theorem memory_wf_nil : Memory.wf [] = true := rfl

theorem memory_wf_cons_iff (a : Nat) (c : Cell) (m : Memory) :
    Memory.wf ((a, c) :: m) = true ↔ c ≠ blankCell ∧ (∀ e ∈ m, a < e.1) ∧ Memory.wf m = true := by
  simp only [Memory.wf, Bool.and_eq_true, rising_cons_iff, List.all_cons, bne_iff_ne, ne_eq]
  tauto

@[simp] theorem memory_read_nil (a : Nat) : Memory.read [] a = blankCell := rfl

/-- An address below every listed one is unlisted. -/
theorem memory_read_of_lt (m : Memory) (a : Nat) (h : ∀ e ∈ m, a < e.1) : m.read a = blankCell := by
  induction m with
  | nil => rfl
  | cons e rest ih =>
    obtain ⟨b, c⟩ := e
    have hb : a < b := h (b, c) (List.mem_cons_self ..)
    simp only [Memory.read, if_neg (Nat.ne_of_lt hb)]
    exact ih (fun e he => h e (List.mem_cons_of_mem _ he))

/-- A write leaves every other cell alone (R55). -/
theorem memory_read_write_other (m : Memory) (a b : Nat) (c : Cell) (h : b ≠ a) :
    (m.write a c).read b = m.read b := by
  induction m with
  | nil => unfold Memory.write; split <;> simp [Memory.read, h]
  | cons e rest ih =>
    obtain ⟨k, x⟩ := e
    unfold Memory.write
    split
    · split <;> simp [Memory.read, h]
    · split
      · next hk => subst hk; split <;> simp [Memory.read, h]
      · simp [Memory.read, ih]

/-- A write of a cell that is not blank is read back, in whatever form the memory is. -/
theorem memory_read_write_same_of_not_blank (m : Memory) (a : Nat) (c : Cell) (h : c ≠ blankCell) :
    (m.write a c).read a = c := by
  induction m with
  | nil => simp [Memory.write, h, Memory.read]
  | cons e rest ih =>
    obtain ⟨k, x⟩ := e
    unfold Memory.write
    split
    · simp [Memory.read]
    · split
      · simp [Memory.read]
      · next hk => simp [Memory.read, hk, ih]

/-- A write is read back (R55). -/
theorem memory_read_write_same (m : Memory) (a : Nat) (c : Cell) (hm : Memory.wf m = true) :
    (m.write a c).read a = c := by
  by_cases h : c = blankCell
  · induction m with
    | nil => simp [Memory.write, h]
    | cons e rest ih =>
      obtain ⟨k, x⟩ := e
      obtain ⟨-, hk, hr⟩ := (memory_wf_cons_iff k x rest).mp hm
      unfold Memory.write
      split
      · next hlt =>
        rw [h]
        exact memory_read_of_lt _ _ (by
          intro e he
          rcases List.mem_cons.mp he with rfl | he
          · exact hlt
          · exact lt_trans hlt (hk e he))
      · split
        · next hak => subst hak; rw [h]; exact memory_read_of_lt _ _ hk
        · next hak => simp only [Memory.read, if_neg hak]; exact ih hr
  · exact memory_read_write_same_of_not_blank m a c h

/-- What a write lists was listed before, or is the cell written. -/
theorem mem_memory_write (m : Memory) (a : Nat) (c : Cell) (e : Nat × Cell) (h : e ∈ m.write a c) :
    e ∈ m ∨ (e = (a, c) ∧ c ≠ blankCell) := by
  induction m with
  | nil =>
    unfold Memory.write at h
    split at h
    · simp at h
    · next hc => right; exact ⟨by simpa using h, hc⟩
  | cons k rest ih =>
    obtain ⟨k, x⟩ := k
    unfold Memory.write at h
    split at h
    · split at h
      · exact .inl h
      · next hc =>
        rcases List.mem_cons.mp h with h | h
        · exact .inr ⟨h, hc⟩
        · exact .inl h
    · split at h
      · split at h
        · exact .inl (List.mem_cons_of_mem _ h)
        · next hc =>
          rcases List.mem_cons.mp h with h | h
          · exact .inr ⟨h, hc⟩
          · exact .inl (List.mem_cons_of_mem _ h)
      · rcases List.mem_cons.mp h with h | h
        · exact .inl (h ▸ List.mem_cons_self ..)
        · rcases ih h with h | h
          · exact .inl (List.mem_cons_of_mem _ h)
          · exact .inr h

/-- A write keeps the canonical form. -/
theorem memory_write_wf (m : Memory) (a : Nat) (c : Cell) (hm : Memory.wf m = true) :
    Memory.wf (m.write a c) = true := by
  induction m with
  | nil =>
    unfold Memory.write
    split
    · rfl
    · next hc => exact (memory_wf_cons_iff a c []).mpr ⟨hc, by simp, rfl⟩
  | cons e rest ih =>
    obtain ⟨k, x⟩ := e
    obtain ⟨hx, hk, hr⟩ := (memory_wf_cons_iff k x rest).mp hm
    unfold Memory.write
    split
    · next hlt =>
      split
      · exact hm
      · next hc =>
        refine (memory_wf_cons_iff a c _).mpr ⟨hc, ?_, hm⟩
        intro e he
        rcases List.mem_cons.mp he with rfl | he
        · exact hlt
        · exact lt_trans hlt (hk e he)
    · next hnlt =>
      split
      · next hak =>
        subst hak
        split
        · exact hr
        · next hc => exact (memory_wf_cons_iff a c rest).mpr ⟨hc, hk, hr⟩
      · next hak =>
        refine (memory_wf_cons_iff k x _).mpr ⟨hx, ?_, ih hr⟩
        intro e he
        rcases mem_memory_write rest a c e he with he | ⟨rfl, -⟩
        · exact hk e he
        · show k < a
          omega

/-! ### The bound of the addresses -/

theorem addressesBelow_iff {α : Type} (n : Nat) (l : List (Nat × α)) :
    addressesBelow n l = true ↔ ∀ e ∈ l, e.1 < n := by
  simp [addressesBelow]

/-- A write below the bound keeps it. -/
theorem memory_write_below (m : Memory) (n a : Nat) (c : Cell) (hm : addressesBelow n m = true) (ha : a < n) :
    addressesBelow n (m.write a c) = true := by
  rw [addressesBelow_iff] at hm ⊢
  intro e he
  rcases mem_memory_write m a c e he with he | ⟨rfl, -⟩
  · exact hm e he
  · exact ha

/-! ### The memory of a load -/

theorem lineCells_above (a : Nat) (lines : List Text) : ∀ e ∈ lineCells a lines, a ≤ e.1 ∧ e.1 < a + lines.length := by
  induction lines generalizing a with
  | nil => simp [lineCells]
  | cons t rest ih =>
    intro e he
    rcases List.mem_cons.mp he with rfl | he
    · simp
    · have := ih (a + 1) e he
      simp only [List.length_cons]
      omega

/-- The memory a load makes is canonical. -/
theorem lineCells_wf (a : Nat) (lines : List Text) : Memory.wf (lineCells a lines) = true := by
  induction lines generalizing a with
  | nil => rfl
  | cons t rest ih =>
    refine (memory_wf_cons_iff a (.instr t) _).mpr ⟨by simp [blankCell], ?_, ih (a + 1)⟩
    intro e he
    have := lineCells_above (a + 1) rest e he
    omega

/-- Line `i` stands in cell `a + i`, and every other cell is blank (R273). -/
theorem lineCells_read (a : Nat) (lines : List Text) (b : Nat) :
    (lineCells a lines).read b =
      if a ≤ b then (match lines[b - a]? with | some t => .instr t | none => blankCell) else blankCell := by
  induction lines generalizing a with
  | nil => simp [lineCells]
  | cons t rest ih =>
    simp only [lineCells, Memory.read]
    by_cases hba : b = a
    · subst hba; simp
    · rw [if_neg hba, ih (a + 1)]
      by_cases hle : a ≤ b
      · have h1 : a + 1 ≤ b := by omega
        have h2 : b - a = (b - (a + 1)) + 1 := by omega
        simp [hle, h1, h2]
      · have h1 : ¬ a + 1 ≤ b := by omega
        simp [hle, h1]

theorem filterMap_rising {α : Type} (l : List Nat) (f : Nat → Option (Nat × α))
    (hf : ∀ a e, f a = some e → e.1 = a) (hl : l.Pairwise (· < ·)) : rising (l.filterMap f) = true := by
  induction l with
  | nil => rfl
  | cons a rest ih =>
    obtain ⟨h1, h2⟩ := List.pairwise_cons.mp hl
    rw [List.filterMap_cons]
    cases hfa : f a with
    | none => exact ih h2
    | some e =>
      obtain ⟨k, x⟩ := e
      have hk : k = a := hf a (k, x) hfa
      refine (rising_cons_iff k x _).mpr ⟨?_, ih h2⟩
      intro e he
      obtain ⟨b, hb, hfb⟩ := List.mem_filterMap.mp he
      rw [hk, hf b e hfb]
      exact h1 b hb

/-- The memory a failed load draws is canonical. -/
theorem drawnMemory_wf (n memSize : Nat) : Memory.wf (drawnMemory n memSize) = true := by
  simp only [Memory.wf, Bool.and_eq_true]
  constructor
  · refine filterMap_rising _ _ ?_ List.pairwise_lt_range
    intro a e h
    split at h
    · simp at h
    · obtain rfl := Option.some.inj h; rfl
  · rw [List.all_eq_true]
    intro e he
    obtain ⟨a, -, h⟩ := List.mem_filterMap.mp he
    split at h
    · simp at h
    · next hc => obtain rfl := Option.some.inj h; simpa using hc

theorem drawnMemory_below (n memSize : Nat) : addressesBelow memSize (drawnMemory n memSize) = true := by
  rw [addressesBelow_iff]
  intro e he
  obtain ⟨a, ha, h⟩ := List.mem_filterMap.mp he
  split at h
  · simp at h
  · obtain rfl := Option.some.inj h; exact List.mem_range.mp ha

theorem drawnLabels_rising (n memSize : Nat) : rising (drawnLabels n memSize) = true := by
  refine filterMap_rising _ _ ?_ List.pairwise_lt_range
  intro a e h
  obtain ⟨t, -, rfl⟩ := Option.map_eq_some_iff.mp h
  rfl

theorem drawnLabels_below (n memSize : Nat) : addressesBelow memSize (drawnLabels n memSize) = true := by
  rw [addressesBelow_iff]
  intro e he
  obtain ⟨a, ha, h⟩ := List.mem_filterMap.mp he
  obtain ⟨t, -, rfl⟩ := Option.map_eq_some_iff.mp h
  exact List.mem_range.mp ha

/-! ### The label table -/

/-- Recording a label leaves every other entry alone (R213). -/
theorem labels_find_record_other (l : Labels) (a b : Nat) (name : Text) (h : b ≠ a) :
    (l.record a name).find b = l.find b := by
  induction l with
  | nil => simp [Labels.record, Labels.find, h]
  | cons e rest ih =>
    obtain ⟨k, x⟩ := e
    unfold Labels.record
    split
    · simp [Labels.find, h]
    · split
      · rfl
      · simp [Labels.find, ih]

theorem labels_find_of_lt (l : Labels) (a : Nat) (h : ∀ e ∈ l, a < e.1) : l.find a = none := by
  induction l with
  | nil => rfl
  | cons e rest ih =>
    obtain ⟨b, x⟩ := e
    have hb : a < b := h (b, x) (List.mem_cons_self ..)
    simp only [Labels.find, if_neg (Nat.ne_of_lt hb)]
    exact ih (fun e he => h e (List.mem_cons_of_mem _ he))

/-- The first name of an address is kept (D32). -/
theorem labels_find_record_same (l : Labels) (a : Nat) (name : Text) (hl : rising l = true) :
    (l.record a name).find a = some ((l.find a).getD name) := by
  induction l with
  | nil => simp [Labels.record, Labels.find]
  | cons e rest ih =>
    obtain ⟨k, x⟩ := e
    obtain ⟨hk, hr⟩ := (rising_cons_iff k x rest).mp hl
    unfold Labels.record
    split
    · next hlt =>
      have hn : Labels.find ((k, x) :: rest) a = none := labels_find_of_lt _ _ (by
        intro e he
        rcases List.mem_cons.mp he with rfl | he
        · exact hlt
        · exact lt_trans hlt (hk e he))
      rw [hn]
      simp [Labels.find]
    · split
      · next hak => simp [Labels.find, hak]
      · next hak => simpa [Labels.find, hak] using ih hr

theorem mem_labels_record (l : Labels) (a : Nat) (name : Text) (e : Nat × Text) (h : e ∈ l.record a name) :
    e ∈ l ∨ e = (a, name) := by
  induction l with
  | nil => right; simpa [Labels.record] using h
  | cons k rest ih =>
    obtain ⟨k, x⟩ := k
    unfold Labels.record at h
    split at h
    · rcases List.mem_cons.mp h with h | h
      · exact .inr h
      · exact .inl h
    · split at h
      · exact .inl h
      · rcases List.mem_cons.mp h with h | h
        · exact .inl (h ▸ List.mem_cons_self ..)
        · rcases ih h with h | h
          · exact .inl (List.mem_cons_of_mem _ h)
          · exact .inr h

/-- Recording a label keeps the table rising. -/
theorem labels_record_rising (l : Labels) (a : Nat) (name : Text) (hl : rising l = true) :
    rising (l.record a name) = true := by
  induction l with
  | nil => rfl
  | cons e rest ih =>
    obtain ⟨k, x⟩ := e
    obtain ⟨hk, hr⟩ := (rising_cons_iff k x rest).mp hl
    unfold Labels.record
    split
    · next hlt =>
      refine (rising_cons_iff a name _).mpr ⟨?_, hl⟩
      intro e he
      rcases List.mem_cons.mp he with rfl | he
      · exact hlt
      · exact lt_trans hlt (hk e he)
    · split
      · exact hl
      · next hnlt hak =>
        refine (rising_cons_iff k x _).mpr ⟨?_, ih hr⟩
        intro e he
        rcases mem_labels_record rest a name e he with he | rfl
        · exact hk e he
        · show k < a
          omega

/-- Recording a label below the bound keeps it. -/
theorem labels_record_below (l : Labels) (n a : Nat) (name : Text) (hl : addressesBelow n l = true) (ha : a < n) :
    addressesBelow n (l.record a name) = true := by
  rw [addressesBelow_iff] at hl ⊢
  intro e he
  rcases mem_labels_record l a name e he with he | rfl
  · exact hl e he
  · exact ha

/-- The memory after reset is canonical. -/
theorem reset_memory_wf : Memory.wf State.reset.mem = true := rfl

end Sys2Proof.Machine
end

