-- ==== Sys2Proof/Laws/State.lean ====
section
/-! SUPPORT. One lemma for each field and each update of the state, so that no proof unfolds a record update. -/

namespace Sys2Proof.Machine

/-! ### Writing a register -/

section
variable (s : State) (r : Reg) (v : Word)

@[simp] theorem setReg_cfg : (s.setReg r v).cfg = s.cfg := rfl
@[simp] theorem setReg_instSize : (s.setReg r v).instSize = s.instSize := rfl
@[simp] theorem setReg_mem : (s.setReg r v).mem = s.mem := rfl
@[simp] theorem setReg_fault : (s.setReg r v).fault = s.fault := rfl
@[simp] theorem setReg_fcause : (s.setReg r v).fcause = s.fcause := rfl
@[simp] theorem setReg_labels : (s.setReg r v).labels = s.labels := rfl
@[simp] theorem setReg_freeCtr : (s.setReg r v).freeCtr = s.freeCtr := rfl

end

@[simp] theorem reg_setReg_same (s : State) (r : Reg) (v : Word) : (s.setReg r v).reg r = v := by
  cases r <;> rfl

theorem reg_setReg_other (s : State) (r q : Reg) (v : Word) (h : q ≠ r) :
    (s.setReg r v).reg q = s.reg q := by
  cases r <;> cases q <;> first | rfl | exact absurd rfl h

theorem reg_setReg (s : State) (r q : Reg) (v : Word) :
    (s.setReg r v).reg q = if q = r then v else s.reg q := by
  split
  · next h => rw [h, reg_setReg_same]
  · next h => exact reg_setReg_other s r q v h

@[simp] theorem setReg_setReg_same (s : State) (r : Reg) (v w : Word) :
    (s.setReg r v).setReg r w = s.setReg r w := by
  cases r <;> rfl

theorem setReg_setReg_comm (s : State) (r q : Reg) (v w : Word) (h : r ≠ q) :
    (s.setReg r v).setReg q w = (s.setReg q w).setReg r v := by
  cases r <;> cases q <;> first | rfl | exact absurd rfl h

@[simp] theorem setReg_reg_self (s : State) (r : Reg) : s.setReg r (s.reg r) = s := by
  cases r <;> rfl

/-! ### Writing a cell -/

section
variable (s : State) (a : Nat) (c : Cell)

@[simp] theorem setCell_cfg : (s.setCell a c).cfg = s.cfg := rfl
@[simp] theorem setCell_regs : (s.setCell a c).regs = s.regs := rfl
@[simp] theorem setCell_instSize : (s.setCell a c).instSize = s.instSize := rfl
@[simp] theorem setCell_mem : (s.setCell a c).mem = s.mem.write a c := rfl
@[simp] theorem setCell_fault : (s.setCell a c).fault = s.fault := rfl
@[simp] theorem setCell_fcause : (s.setCell a c).fcause = s.fcause := rfl
@[simp] theorem setCell_labels : (s.setCell a c).labels = s.labels := rfl
@[simp] theorem setCell_freeCtr : (s.setCell a c).freeCtr = s.freeCtr := rfl
@[simp] theorem reg_setCell (r : Reg) : (s.setCell a c).reg r = s.reg r := rfl

end

/-! ### Taking a fault -/

section
variable (s : State) (f : FaultCause)

@[simp] theorem takeFault_cfg : (takeFault s f).cfg = s.cfg := rfl
@[simp] theorem takeFault_regs : (takeFault s f).regs = s.regs := rfl
@[simp] theorem takeFault_instSize : (takeFault s f).instSize = s.instSize := rfl
@[simp] theorem takeFault_mem : (takeFault s f).mem = s.mem := rfl
@[simp] theorem takeFault_fault : (takeFault s f).fault = true := rfl
@[simp] theorem takeFault_labels : (takeFault s f).labels = s.labels := rfl
@[simp] theorem takeFault_freeCtr : (takeFault s f).freeCtr = s.freeCtr := rfl
@[simp] theorem reg_takeFault (r : Reg) : (takeFault s f).reg r = s.reg r := rfl

end

/-- The first cause is kept (R243). -/
@[simp] theorem takeFault_fcause (s : State) (f : FaultCause) :
    (takeFault s f).fcause = if s.fault then s.fcause else f := rfl

/-- A fault taken while none is recorded sets exactly `FAULT` and `FCAUSE` (R243). -/
theorem takeFault_of_no_fault (s : State) (f : FaultCause) (h : s.fault = false) :
    takeFault s f = { s with fault := true, fcause := f } := by
  simp [takeFault, h]

/-! ### Clearing -/

section
variable (s : State)

@[simp] theorem clear_cfg : (clear s).cfg = s.cfg := rfl
@[simp] theorem clear_regs : (clear s).regs = Regs.zero := rfl
@[simp] theorem clear_instSize : (clear s).instSize = 0 := rfl
@[simp] theorem clear_mem : (clear s).mem = s.mem := rfl
@[simp] theorem clear_fault : (clear s).fault = false := rfl
@[simp] theorem clear_fcause : (clear s).fcause = .none := rfl
@[simp] theorem clear_labels : (clear s).labels = s.labels := rfl
@[simp] theorem clear_freeCtr : (clear s).freeCtr = s.freeCtr := rfl

end

@[simp] theorem reg_clear (s : State) (r : Reg) : (clear s).reg r = 0 := by cases r <;> rfl

/-! ### Advancing the program counter -/

section
variable (s : State)

@[simp] theorem advance_cfg : s.advance.cfg = s.cfg := rfl
@[simp] theorem advance_instSize : s.advance.instSize = s.instSize := rfl
@[simp] theorem advance_mem : s.advance.mem = s.mem := rfl
@[simp] theorem advance_fault : s.advance.fault = s.fault := rfl
@[simp] theorem advance_fcause : s.advance.fcause = s.fcause := rfl
@[simp] theorem advance_labels : s.advance.labels = s.labels := rfl
@[simp] theorem advance_freeCtr : s.advance.freeCtr = s.freeCtr := rfl

end

@[simp] theorem advance_pc (s : State) : s.advance.reg .pc = wrap32 ((s.reg .pc).toInt + 1) := rfl

theorem reg_advance_other (s : State) (r : Reg) (h : r ≠ .pc) : s.advance.reg r = s.reg r :=
  reg_setReg_other s .pc r _ h

/-! ### Writing a destination -/

section
variable (s : State) (p : Place) (v : Word)

@[simp] theorem writePlace_cfg : (s.writePlace p v).cfg = s.cfg := by cases p <;> rfl
@[simp] theorem writePlace_instSize : (s.writePlace p v).instSize = s.instSize := by cases p <;> rfl
@[simp] theorem writePlace_fault : (s.writePlace p v).fault = s.fault := by cases p <;> rfl
@[simp] theorem writePlace_fcause : (s.writePlace p v).fcause = s.fcause := by cases p <;> rfl
@[simp] theorem writePlace_labels : (s.writePlace p v).labels = s.labels := by cases p <;> rfl
@[simp] theorem writePlace_freeCtr : (s.writePlace p v).freeCtr = s.freeCtr := by cases p <;> rfl

end

@[simp] theorem writePlace_reg (s : State) (r : Reg) (v : Word) : s.writePlace (.reg r) v = s.setReg r v := rfl

@[simp] theorem writePlace_cell (s : State) (a : Nat) (v : Word) :
    s.writePlace (.cell a) v = s.setCell a (.data v) := rfl

/-! ### Landing a jump -/

section
variable (s : State) (a : Nat) (name : Text)

@[simp] theorem land_cfg : (s.land a name).cfg = s.cfg := by unfold State.land; split <;> rfl
@[simp] theorem land_instSize : (s.land a name).instSize = s.instSize := by unfold State.land; split <;> rfl
@[simp] theorem land_fault : (s.land a name).fault = s.fault := by unfold State.land; split <;> rfl
@[simp] theorem land_fcause : (s.land a name).fcause = s.fcause := by unfold State.land; split <;> rfl
@[simp] theorem land_freeCtr : (s.land a name).freeCtr = s.freeCtr := by unfold State.land; split <;> rfl
@[simp] theorem land_labels : (s.land a name).labels = s.labels.record a name := by
  unfold State.land; split <;> rfl
@[simp] theorem land_pc : (s.land a name).reg .pc = pcOfCell a := by unfold State.land; split <;> rfl

end

theorem reg_land_other (s : State) (a : Nat) (name : Text) (r : Reg) (h : r ≠ .pc) :
    (s.land a name).reg r = s.reg r := by
  unfold State.land
  split <;> rw [reg_setReg_other _ _ _ _ h] <;> rfl

/-- In STATIC a taken jump changes no cell (R35). -/
theorem land_mem_static (s : State) (a : Nat) (name : Text) (h : s.cfg.labelMode = .static) :
    (s.land a name).mem = s.mem := by
  simp [State.land, h]

/-- In REWRITE a taken jump strips its target cell (R214). -/
theorem land_mem_rewrite (s : State) (a : Nat) (name : Text) (h : s.cfg.labelMode = .rewrite) :
    (s.land a name).mem = s.mem.write a (.instr (strip (cellText (s.mem.read a)))) := by
  simp [State.land, h]

end Sys2Proof.Machine
end

