-- ==== Sys2Proof/Laws/Operations.lean ====
section
/-! SUPPORT. One lemma for each shared operation, saying once everything it can do: the address check, operand
resolution, the commit of an outcome, label lookup, and the end of an instruction. -/

namespace Sys2Proof.Machine

/-! ### Addresses and cells -/

/-- The address check passes exactly inside the data region (R53). -/
theorem checkAddr_eq_ok_iff (s : State) (a : Int) (c : Nat) :
    checkAddr s a = .ok c ↔ (s.instSize : Int) ≤ a ∧ a < s.cfg.memSize ∧ c = a.toNat := by
  unfold checkAddr
  split
  · next h => simp; omega
  · split
    · next h => simp; omega
    · simp only [Except.ok.injEq]
      constructor
      · rintro rfl; omega
      · rintro ⟨-, -, rfl⟩; rfl

/-- Below `instSize` the address check raises PROTECTION (R53). -/
theorem checkAddr_protection (s : State) (a : Int) (h : a < s.instSize) :
    checkAddr s a = .error (.raise .protection) := by
  simp [checkAddr, h]

/-- From `MEM_SIZE` on the address check raises BOUNDS (R53). -/
theorem checkAddr_bounds (s : State) (a : Int) (h : (s.instSize : Int) ≤ a) (h' : (s.cfg.memSize : Int) ≤ a) :
    checkAddr s a = .error (.raise .bounds) := by
  simp [checkAddr, h, h']

/-- What the address check answers when it fails. -/
theorem checkAddr_error (s : State) (a : Int) (e : Stop) (h : checkAddr s a = .error e) :
    e = .raise .protection ∨ e = .raise .bounds := by
  unfold checkAddr at h
  split at h
  · exact .inl (Except.error.inj h).symm
  · split at h
    · exact .inr (Except.error.inj h).symm
    · cases h

theorem memRead_eq_ok_iff (s : State) (a : Nat) (v : Word) :
    memRead s a = .ok v ↔ s.mem.read a = .data v := by
  unfold memRead
  split <;> simp_all

theorem memRead_error (s : State) (a : Nat) (e : Stop) (h : memRead s a = .error e) :
    e = .refuse .instrReadAsData ∧ ∃ t, s.mem.read a = .instr t := by
  unfold memRead at h
  split at h
  · cases h
  · next t ht => exact ⟨(Except.error.inj h).symm, t, ht⟩

/-! ### Operands -/

theorem classifyOrRaise_of_some (s : State) (tok : Token) (o : Operand)
    (h : classify s.cfg.regNames tok = some o) : classifyOrRaise s tok = .ok o := by
  simp [classifyOrRaise, h]

theorem classifyOrRaise_of_none (s : State) (tok : Token) (h : classify s.cfg.regNames tok = none) :
    classifyOrRaise s tok = .error (.raise .operandSyntax) := by
  simp [classifyOrRaise, h]

/-- A token classifies as a register exactly when it is a register's name (R78). -/
theorem classify_eq_reg_iff (names : RegNames) (tok : Token) (r : Reg) :
    classify names tok = some (.reg r) ↔ regNamed names tok = some r := by
  unfold classify
  split
  · next q hq => simp [hq]
  · next hq =>
    rw [hq]
    refine ⟨?_, by simp⟩
    intro h
    split at h
    · simp [Option.map_eq_some_iff] at h
    · split at h
      · split at h <;> simp at h
      · simp at h

/-- Destination resolution succeeds exactly on the destinations, with the place written (R110). -/
theorem resolveDest_eq_ok_iff (s : State) (tok : Token) (p : Place) :
    resolveDest s tok = .ok p ↔ writesTo s tok p = true := by
  unfold resolveDest writesTo
  cases hc : classify s.cfg.regNames tok with
  | none => simp [classifyOrRaise_of_none s tok hc]
  | some o =>
    rw [classifyOrRaise_of_some s tok o hc]
    cases o with
    | reg r =>
      simp only [Except.ok.injEq, beq_iff_eq]
      exact eq_comm
    | imm v => simp
    | mem a =>
      simp only [Bool.and_eq_true, decide_eq_true_eq, beq_iff_eq]
      cases hk : checkAddr s a with
      | error e =>
        refine iff_of_false (by simp [Except.map]) ?_
        rintro ⟨⟨h1, h2⟩, -⟩
        have := (checkAddr_eq_ok_iff s a a.toNat).mpr ⟨h1, h2, rfl⟩
        rw [hk] at this
        cases this
      | ok c =>
        obtain ⟨h1, h2, rfl⟩ := (checkAddr_eq_ok_iff s a c).mp hk
        simp only [Except.map, h1, h2, Except.ok.injEq, true_and]
        exact eq_comm

/-- Source resolution succeeds exactly with the value the token reads as (R112). -/
theorem resolveSrc_eq_ok_iff (s : State) (tok : Token) (v : Word) :
    resolveSrc s tok = .ok v ↔ readsAs s tok v = true := by
  unfold resolveSrc readsAs
  cases hc : classify s.cfg.regNames tok with
  | none => simp [classifyOrRaise_of_none s tok hc]
  | some o =>
    rw [classifyOrRaise_of_some s tok o hc]
    cases o with
    | reg r => simp
    | imm w => simp
    | mem a =>
      simp only [Bool.and_eq_true, decide_eq_true_eq, beq_iff_eq]
      cases hk : checkAddr s a with
      | error e =>
        refine iff_of_false (by simp) ?_
        rintro ⟨⟨h1, h2⟩, -⟩
        have := (checkAddr_eq_ok_iff s a a.toNat).mpr ⟨h1, h2, rfl⟩
        rw [hk] at this
        cases this
      | ok c =>
        obtain ⟨h1, h2, rfl⟩ := (checkAddr_eq_ok_iff s a c).mp hk
        simp [memRead_eq_ok_iff, h1, h2]

/-- The old value of a destination is exactly what its token reads as (R111). -/
theorem readPlace_eq_ok_iff (s : State) (tok : Token) (p : Place) (v : Word)
    (hp : writesTo s tok p = true) : readPlace s p = .ok v ↔ readsAs s tok v = true := by
  unfold writesTo at hp
  unfold readsAs
  cases hc : classify s.cfg.regNames tok with
  | none => simp [hc] at hp
  | some o =>
    cases o with
    | reg r =>
      simp only [hc, beq_iff_eq] at hp
      subst hp
      simp [readPlace]
    | imm w => simp [hc] at hp
    | mem a =>
      simp only [hc, Bool.and_eq_true, decide_eq_true_eq, beq_iff_eq] at hp
      rw [hp.2]
      simp [readPlace, memRead_eq_ok_iff, hp.1]

/-- Where both operands resolve, a two-operand outcome is made of their values (R114). -/
theorem withOperands_of_resolved (s : State) (d src : Token) (f : Place → Word → Word → Pending)
    (p : Place) (a b : Word) (hp : writesTo s d p = true) (ha : readsAs s d a = true)
    (hb : readsAs s src b = true) : withOperands s d src f = .ok (f p a b) := by
  simp [withOperands, (resolveDest_eq_ok_iff s d p).mpr hp, (readPlace_eq_ok_iff s d p a hp).mpr ha,
    (resolveSrc_eq_ok_iff s src b).mpr hb]

/-- An outcome of a two-operand instruction was made of a destination, its value and a source. -/
theorem withOperands_eq_ok (s : State) (d src : Token) (f : Place → Word → Word → Pending) (q : Pending)
    (h : withOperands s d src f = .ok q) :
    ∃ p a b, writesTo s d p = true ∧ readsAs s d a = true ∧ readsAs s src b = true ∧ q = f p a b := by
  unfold withOperands at h
  split at h
  · cases h
  · next p hp =>
    split at h
    · cases h
    · next a ha =>
      split at h
      · cases h
      · next b hb =>
        have hp' := (resolveDest_eq_ok_iff s d p).mp hp
        exact ⟨p, a, b, hp', (readPlace_eq_ok_iff s d p a hp').mp ha, (resolveSrc_eq_ok_iff s src b).mp hb,
          (Except.ok.inj h).symm⟩

/-- Operand 1 is checked first: its fault is the one raised (R114, R245). -/
theorem withOperands_of_dest_error (s : State) (d src : Token) (f : Place → Word → Word → Pending) (e : Stop)
    (h : resolveDest s d = .error e) : withOperands s d src f = .error e := by
  simp [withOperands, h]

/-- Operand 2 is checked once operand 1 is resolved and read (R114, R245). -/
theorem withOperands_of_src_error (s : State) (d src : Token) (f : Place → Word → Word → Pending) (e : Stop)
    (p : Place) (a : Word) (hp : writesTo s d p = true) (ha : readsAs s d a = true)
    (h : resolveSrc s src = .error e) : withOperands s d src f = .error e := by
  simp [withOperands, (resolveDest_eq_ok_iff s d p).mpr hp, (readPlace_eq_ok_iff s d p a hp).mpr ha, h]

/-! ### The end of an instruction -/

@[simp] theorem complete_ok (s : State) (p : Pending) : complete s (.ok p) = .next (commit s p) := rfl

@[simp] theorem complete_raise (s : State) (f : FaultCause) :
    complete s (.error (.raise f)) = .next (takeFault s f) := rfl

@[simp] theorem complete_refuse (s : State) (r : Refusal) :
    complete s (.error (.refuse r)) = .refused r := rfl

/-- A next state comes from an outcome committed or a fault taken (R103, R105). -/
theorem complete_eq_next (s t : State) (r : Except Stop Pending) (h : complete s r = .next t) :
    (∃ p, r = .ok p ∧ t = commit s p) ∨ (∃ f, r = .error (.raise f) ∧ t = takeFault s f) := by
  match r, h with
  | .ok p, h => exact .inl ⟨p, rfl, (Host.Outcome.next.inj h).symm⟩
  | .error (.raise f), h => exact .inr ⟨f, rfl, (Host.Outcome.next.inj h).symm⟩

/-! ### Commit -/

/-- An outcome without writes only advances `pc` (R104). -/
@[simp] theorem commit_nothing (s : State) : commit s {} = s.advance := rfl

@[simp] theorem commit_jump (s : State) (a : Nat) (name : Text) :
    commit s { control := .jump a name } = s.land a name := rfl

theorem commit_dest (s : State) (p : Place) (v : Word) :
    commit s { dest := some (p, v) } = (s.writePlace p v).advance := rfl

theorem commit_dest_ovf (s : State) (p : Place) (v : Word) :
    commit s { dest := some (p, v), ovf := true } = ((s.writePlace p v).setReg .of 1).advance := rfl

/-- The registers after a destination write. -/
theorem reg_writePlace_other (s : State) (p : Place) (v : Word) (r : Reg) (h : r ∉ placeRegs p) :
    (s.writePlace p v).reg r = s.reg r := by
  cases p with
  | cell a => rfl
  | reg q => exact reg_setReg_other s q r v (by simpa [placeRegs] using h)

/-- The cells after a destination write. -/
theorem read_writePlace_other (s : State) (p : Place) (v : Word) (a : Nat) (h : a ∉ placeCells p) :
    (s.writePlace p v).mem.read a = s.mem.read a := by
  cases p with
  | reg q => rfl
  | cell b => exact memory_read_write_other _ _ _ _ (by simpa [placeCells] using h)

/-- Advancing changes `pc` alone (R26). -/
theorem advance_advances (s : State) : Advances s s.advance := by
  refine ⟨rfl, ?_, by simp, by simp⟩
  intro r h
  exact reg_advance_other s r (by simpa using h)

/-- The commit of a destination write stores the value and advances (R104). -/
theorem commit_dest_stores (s : State) (p : Place) (v : Word) (hm : Memory.wf s.mem = true) :
    Stores s (commit s { dest := some (p, v) }) p v := by
  rw [commit_dest]
  refine ⟨?_, ?_, ?_, ?_, by simp⟩
  · cases p with
    | cell a => simpa [Holds] using memory_read_write_same _ _ _ hm
    | reg r => cases r <;> rfl
  · intro hp
    have : (s.writePlace p v).reg .pc = s.reg .pc :=
      reg_writePlace_other s p v .pc (by cases p with | cell a => simp [placeRegs] | reg r => simpa [placeRegs, eq_comm] using hp)
    simp [PcAdvanced, this]
  · intro r hr
    rw [List.mem_cons, not_or] at hr
    rw [reg_advance_other _ r hr.1, reg_writePlace_other s p v r hr.2]
  · intro a ha
    rw [advance_mem, read_writePlace_other s p v a ha]

/-- The commit of an exact result stores it wrapped, with the overflow rule (R104, R150). -/
theorem commit_exactResult_stores (s : State) (p : Place) (e : Int) (hm : Memory.wf s.mem = true) :
    StoresExact s (commit s (exactResult s.cfg.ovfMode p e)) p e := by
  constructor
  · rintro ⟨hmode, hrange⟩
    have hovf : exactResult s.cfg.ovfMode p e = { dest := some (p, wrap32 e), ovf := true } := by
      simp only [exactResult, overflows, hmode, isInt32]
      congr 1
      simp only [Bool.not_eq_true', Bool.and_eq_false_iff, decide_eq_false_iff_not]
      omega
    rw [hovf, commit_dest_ovf]
    refine ⟨?_, ?_, ?_, ?_, ?_, by simp⟩
    · intro hp
      cases p with
      | cell a => simpa [Holds] using memory_read_write_same _ _ _ hm
      | reg r => cases r <;> first | rfl | exact absurd rfl hp
    · rw [reg_advance_other _ _ (by decide), reg_setReg_same]; rfl
    · intro hp
      have : (s.writePlace p (wrap32 e)).reg .pc = s.reg .pc :=
        reg_writePlace_other s p _ .pc (by cases p with | cell a => simp [placeRegs] | reg r => simpa [placeRegs, eq_comm] using hp)
      simp [PcAdvanced, reg_setReg, this]
    · intro r hr
      rw [List.mem_cons, List.mem_cons, not_or, not_or] at hr
      rw [reg_advance_other _ r hr.1, reg_setReg_other _ _ r _ hr.2.1, reg_writePlace_other s p _ r hr.2.2]
    · intro a ha
      rw [advance_mem, setReg_mem, read_writePlace_other s p _ a ha]
  · intro hno
    have hovf : exactResult s.cfg.ovfMode p e = { dest := some (p, wrap32 e) } := by
      simp only [exactResult, overflows]
      congr 1
      cases hmode : s.cfg.ovfMode with
      | inert => rfl
      | exact =>
        have : -2147483648 ≤ e ∧ e ≤ 2147483647 := by
          by_contra h
          exact hno ⟨hmode, h⟩
        simp [isInt32, this]
    rw [hovf]
    exact commit_dest_stores s p _ hm

/-! ### Labels and jumps -/

/-- Label lookup answers exactly the first cell that defines the label (R211). -/
theorem findLabel_eq_ok_iff (s : State) (name : Text) (a : Nat) :
    findLabel s name = .ok a ↔ firstLabel s name a = true := by
  have hf : ∀ c, (List.range s.instSize).find? (definesLabel s name) = some c ↔ firstLabel s name c = true := by
    intro c
    rw [List.find?_range_eq_some]
    simp only [firstLabel, definesLabel, List.mem_range, Bool.and_eq_true, decide_eq_true_eq, beq_iff_eq,
      List.all_eq_true, bne_iff_ne, Bool.not_eq_true', beq_eq_false_iff_ne]
    tauto
  unfold findLabel
  cases hx : (List.range s.instSize).find? (definesLabel s name) with
  | none =>
    refine iff_of_false (by simp) ?_
    intro h
    rw [(hf a).mpr h] at hx
    cases hx
  | some c => rw [Except.ok.injEq, ← hf a, hx, Option.some.injEq]

/-- Label lookup raises exactly when no instruction cell defines the label (R211). -/
theorem findLabel_eq_raise_iff (s : State) (name : Text) :
    findLabel s name = .error (.raise .labelNotFound) ↔ noLabel s name = true := by
  have hn : (List.range s.instSize).find? (definesLabel s name) = none ↔ noLabel s name = true := by
    rw [List.find?_eq_none]
    simp [noLabel, definesLabel]
  unfold findLabel
  split
  · next a h => simp [← hn, h]
  · next h => simp [← hn, h]

theorem wellFormedTarget_eq (s : State) (t : Text) : wellFormedTarget s.cfg.labelMode t = targetOk s t := by
  unfold wellFormedTarget targetOk
  cases s.cfg.labelMode with
  | static => rfl
  | rewrite =>
    simp only [List.contains_eq_any_beq]
    congr 1
    funext c
    exact Bool.beq_comm

theorem takeJump_of_ok (s : State) (a : Nat) (name : Text) (h : targetOk s (cellText (s.mem.read a)) = true) :
    takeJump s a name = .ok { control := .jump a name } := by
  simp [takeJump, wellFormedTarget_eq, h]

theorem takeJump_of_bad (s : State) (a : Nat) (name : Text) (h : targetOk s (cellText (s.mem.read a)) = false) :
    takeJump s a name = .error (.raise .badTarget) := by
  simp [takeJump, wellFormedTarget_eq, h]

/-- `strip` is what follows the first space (R214). -/
theorem strip_append (before after : Text) (h : ' ' ∉ before) : strip (before ++ ' ' :: after) = after := by
  unfold strip
  rw [List.dropWhile_append_of_pos (by intro c hc; simp; rintro rfl; exact h hc)]
  simp

/-- A text with a space splits at its first one. -/
theorem exists_first_space (t : Text) (h : t.any (fun c => c == ' ') = true) :
    ∃ before after, t = before ++ ' ' :: after ∧ ' ' ∉ before := by
  induction t with
  | nil => simp at h
  | cons c rest ih =>
    by_cases hc : c = ' '
    · exact ⟨[], rest, by simp [hc], by simp⟩
    · obtain ⟨b, a, rfl, hb⟩ := ih (by simpa [hc] using h)
      exact ⟨c :: b, a, rfl, by simp [hb, Ne.symm hc]⟩

/-- A cell address that is an `int32` is the value of its word. -/
theorem toInt_ofNat_of_lt (a : Nat) (h : a < 2147483648) : (BitVec.ofNat 32 a).toInt = a := by
  rw [BitVec.toInt_eq_toNat_of_lt] <;> simp only [BitVec.toNat_ofNat] <;> omega

/-- What landing a jump leaves (R213, R214). -/
theorem land_jumpsTo (s : State) (a : Nat) (name u : Text) (hl : rising s.labels = true)
    (hm : s.mem.read a = .instr u) (ht : targetOk s u = true) : JumpsTo s (s.land a name) a name u := by
  refine ⟨?_, ?_, ?_, ?_, ?_, ?_, by simp, by simp, by simp, by simp, by simp⟩
  · intro h
    rw [land_pc, pcOfCell, if_pos h]
    exact toInt_ofNat_of_lt a h
  · intro r hr; exact reg_land_other s a name r hr
  · rw [land_labels]; exact labels_find_record_same _ _ _ hl
  · intro b hb; rw [land_labels]; exact labels_find_record_other _ _ _ _ hb
  · intro h b; rw [land_mem_static s a name h]
  · intro h
    rw [land_mem_rewrite s a name h]
    refine ⟨?_, fun b hb => memory_read_write_other _ _ _ _ hb⟩
    obtain ⟨b, c, hu, hb⟩ := exists_first_space u (by simpa [targetOk, h] using ht)
    refine ⟨b, c, hu, hb, ?_⟩
    rw [memory_read_write_same_of_not_blank _ _ _ (by simp [blankCell]), hm]
    simp only [cellText]
    rw [hu, strip_append b c hb]

end Sys2Proof.Machine
end

