-- ==== Sys2Proof/Laws/Exec.lean ====
section
/-! SUPPORT. What an instruction can do at all: one inversion lemma over the five shapes of a next state, and
the turns of the loop. -/

namespace Sys2Proof.Machine

/-- The next states of an instruction, whatever it is: a fault taken; `pc` advanced alone, by a jump or by MUL
and DIV; a destination written; the exact result of ADD, SUB or MUL written, with `OF`; the comparison of
its operands written to `CR` by CMP; a jump landed on an instruction cell. -/
inductive NextShape (i : Instr) (s : State) : State → Prop where
  | fault (f : FaultCause) (hf : f ≠ .none) : NextShape i s (takeFault s f)
  | advance (hi : isJump i ∨ ∃ d src, i = .mul d src ∨ i = .div d src) : NextShape i s s.advance
  | store (d : Token) (p : Place) (v : Word) (hd : destToken i = some d) (hp : writesTo s d p = true) :
      NextShape i s (commit s { dest := some (p, v) })
  | storeExact (d src : Token) (p : Place) (e : Int) (hd : destToken i = some d) (hp : writesTo s d p = true)
      (hi : i = .add d src ∨ i = .sub d src ∨ i = .mul d src) (he : ExactResultOf s i e) :
      NextShape i s (commit s (exactResult s.cfg.ovfMode p e))
  | compare (d src : Token) (a b : Word) (hi : i = .cmp d src) (ha : readsAs s d a = true)
      (hb : readsAs s src b = true) :
      NextShape i s (commit s { dest := some (.reg .cr, compareValue a b) })
  | land (l : Token) (a : Nat) (hi : i = .jmp l ∨ i = .jg l ∨ i = .jl l ∨ i = .je l)
      (ha : firstLabel s (labelName l) a = true) (ht : targetOk s (cellText (s.mem.read a)) = true) :
      NextShape i s (s.land a (labelName l))

/-- A raise of the address check is PROTECTION or BOUNDS, so some cause. -/
theorem checkAddr_raise_ne_none (s : State) (a : Int) (f : FaultCause)
    (h : checkAddr s a = .error (.raise f)) : f ≠ .none := by
  rcases checkAddr_error s a _ h with h | h <;> cases h <;> decide

theorem memRead_not_raise (s : State) (a : Nat) (f : FaultCause) : memRead s a ≠ .error (.raise f) := by
  intro h
  cases (memRead_error s a _ h).1

theorem classifyOrRaise_raise_ne_none (s : State) (tok : Token) (f : FaultCause)
    (h : classifyOrRaise s tok = .error (.raise f)) : f ≠ .none := by
  unfold classifyOrRaise at h
  split at h
  · cases h
  · cases h; decide

theorem resolveDest_raise_ne_none (s : State) (tok : Token) (f : FaultCause)
    (h : resolveDest s tok = .error (.raise f)) : f ≠ .none := by
  unfold resolveDest at h
  split at h
  · next hc => cases h; exact classifyOrRaise_raise_ne_none s tok f hc
  · cases h; decide
  · next a hc =>
    cases hk : checkAddr s a with
    | ok c => simp [hk, Except.map] at h
    | error e =>
      simp only [hk, Except.map, Except.error.injEq] at h
      subst h
      exact checkAddr_raise_ne_none s a f hk
  · cases h

theorem resolveSrc_raise_ne_none (s : State) (tok : Token) (f : FaultCause)
    (h : resolveSrc s tok = .error (.raise f)) : f ≠ .none := by
  unfold resolveSrc at h
  split at h
  · next hc => cases h; exact classifyOrRaise_raise_ne_none s tok f hc
  · cases h
  · cases h
  · split at h
    · next hk => cases h; exact checkAddr_raise_ne_none s _ f hk
    · exact absurd h (memRead_not_raise s _ f)

theorem readPlace_not_raise (s : State) (p : Place) (f : FaultCause) : readPlace s p ≠ .error (.raise f) := by
  cases p with
  | reg r => intro h; cases h
  | cell a => exact memRead_not_raise s a f

theorem withOperands_raise_ne_none (s : State) (d src : Token) (g : Place → Word → Word → Pending)
    (f : FaultCause) (h : withOperands s d src g = .error (.raise f)) : f ≠ .none := by
  unfold withOperands at h
  split at h
  · next hd => cases h; exact resolveDest_raise_ne_none s d f hd
  · split at h
    · next hr => cases h; exact absurd hr (readPlace_not_raise s _ f)
    · split at h
      · next hs => cases h; exact resolveSrc_raise_ne_none s src f hs
      · cases h

theorem checkUnused_raise_ne_none (s : State) (o : Operand) (f : FaultCause)
    (h : checkUnused s o = .error (.raise f)) : f ≠ .none := by
  unfold checkUnused at h
  split at h
  · cases h
  · cases h
  · split at h
    · next hk => cases h; exact checkAddr_raise_ne_none s _ f hk
    · cases h

/-- MUL and DIV without a register operand 1 write nothing (R154). -/
theorem nonRegisterArith_eq_ok (isDiv : Bool) (s : State) (d src : Token) (q : Pending)
    (h : nonRegisterArith isDiv s d src = .ok q) : q = {} := by
  unfold nonRegisterArith at h
  split at h
  · cases h
  · split at h
    · cases h
    · split at h
      · cases h
      · split at h
        · cases h
        · exact (Except.ok.inj h).symm

theorem nonRegisterArith_raise_ne_none (isDiv : Bool) (s : State) (d src : Token) (f : FaultCause)
    (h : nonRegisterArith isDiv s d src = .error (.raise f)) : f ≠ .none := by
  unfold nonRegisterArith at h
  split at h
  · next hc => cases h; exact classifyOrRaise_raise_ne_none s d f hc
  · split at h
    · next hk => cases h; exact checkUnused_raise_ne_none s _ f hk
    · split at h
      · next hs => cases h; exact resolveSrc_raise_ne_none s src f hs
      · split at h
        · cases h; decide
        · cases h

theorem regNamed_writesTo (s : State) (d : Token) (r : Reg) (h : regNamed s.cfg.regNames d = some r) :
    writesTo s d (.reg r) = true := by
  simp [writesTo, (classify_eq_reg_iff s.cfg.regNames d r).mpr h]

theorem regNamed_readsAs (s : State) (d : Token) (r : Reg) (h : regNamed s.cfg.regNames d = some r) :
    readsAs s d (s.reg r) = true := by
  simp [readsAs, (classify_eq_reg_iff s.cfg.regNames d r).mpr h]

theorem isJump_of_eq (i : Instr) (l : Token) (h : i = .jmp l ∨ i = .jg l ∨ i = .jl l ∨ i = .je l) :
    isJump i := by
  rcases h with rfl | rfl | rfl | rfl
  · exact ⟨.jmp, by simp [jumps], l, rfl⟩
  · exact ⟨.jg, by simp [jumps], l, rfl⟩
  · exact ⟨.jl, by simp [jumps], l, rfl⟩
  · exact ⟨.je, by simp [jumps], l, rfl⟩

theorem jump_shape (i : Instr) (s t : State) (l : Token) (taken : Bool)
    (hi : i = .jmp l ∨ i = .jg l ∨ i = .jl l ∨ i = .je l) (h : complete s (jump s l taken) = .next t) :
    NextShape i s t := by
  rcases complete_eq_next s t _ h with ⟨q, hq, rfl⟩ | ⟨f, hf, rfl⟩
  · unfold jump at hq
    split at hq
    · cases hq
    · next a ha =>
      have ha' := (findLabel_eq_ok_iff s _ a).mp ha
      split at hq
      · by_cases ht : targetOk s (cellText (s.mem.read a)) = true
        · rw [takeJump_of_ok s a _ ht] at hq
          cases hq
          exact .land l a hi ha' ht
        · rw [takeJump_of_bad s a _ (by simpa using ht)] at hq
          cases hq
      · cases hq
        exact .advance (.inl (isJump_of_eq i l hi))
  · refine .fault f ?_
    unfold jump at hf
    split at hf
    · next e he =>
      cases hf
      unfold findLabel at he
      split at he
      · cases he
      · cases he; decide
    · split at hf
      · unfold takeJump at hf
        split at hf
        · cases hf
        · cases hf; decide
      · cases hf

theorem storing_shape (i : Instr) (s t : State) (d src : Token) (g : Word → Word → Word)
    (hd : destToken i = some d)
    (h : complete s (withOperands s d src (fun p a b => { dest := some (p, g a b) })) = .next t) :
    NextShape i s t := by
  rcases complete_eq_next s t _ h with ⟨q, hq, rfl⟩ | ⟨f, hf, rfl⟩
  · obtain ⟨p, a, b, hp, -, -, rfl⟩ := withOperands_eq_ok s d src _ q hq
    exact .store d p _ hd hp
  · exact .fault f (withOperands_raise_ne_none s d src _ f hf)

theorem exact_shape (i : Instr) (s t : State) (d src : Token) (g : Word → Word → Int)
    (hi : i = .add d src ∨ i = .sub d src ∨ i = .mul d src) (hd : destToken i = some d)
    (hg : ∀ a b, readsAs s d a = true → readsAs s src b = true → ExactResultOf s i (g a b))
    (h : complete s (withOperands s d src (fun p a b => exactResult s.cfg.ovfMode p (g a b))) = .next t) :
    NextShape i s t := by
  rcases complete_eq_next s t _ h with ⟨q, hq, rfl⟩ | ⟨f, hf, rfl⟩
  · obtain ⟨p, a, b, hp, ha, hb, rfl⟩ := withOperands_eq_ok s d src _ q hq
    exact .storeExact d src p _ hd hp hi (hg a b ha hb)
  · exact .fault f (withOperands_raise_ne_none s d src _ f hf)

theorem execMov_shape (s t : State) (d src : Token) (h : execMov d src s = .next t) :
    NextShape (.mov d src) s t := by
  rcases complete_eq_next s t _ h with ⟨q, hq, rfl⟩ | ⟨f, hf, rfl⟩
  · split at hq
    · cases hq
    · next p hp =>
      split at hq
      · cases hq
      · cases hq
        exact .store d p _ rfl ((resolveDest_eq_ok_iff s d p).mp hp)
  · refine .fault f ?_
    split at hf
    · next hd => cases hf; exact resolveDest_raise_ne_none s d f hd
    · split at hf
      · next hs => cases hf; exact resolveSrc_raise_ne_none s src f hs
      · cases hf

theorem execNot_shape (s t : State) (d : Token) (h : execNot d s = .next t) : NextShape (.not d) s t := by
  rcases complete_eq_next s t _ h with ⟨q, hq, rfl⟩ | ⟨f, hf, rfl⟩
  · split at hq
    · cases hq
    · next p hp =>
      split at hq
      · cases hq
      · cases hq
        exact .store d p _ rfl ((resolveDest_eq_ok_iff s d p).mp hp)
  · refine .fault f ?_
    split at hf
    · next hd => cases hf; exact resolveDest_raise_ne_none s d f hd
    · split at hf
      · next hr => cases hf; exact absurd hr (readPlace_not_raise s _ f)
      · cases hf

theorem execMul_shape (s t : State) (d src : Token) (h : execMul d src s = .next t) :
    NextShape (.mul d src) s t := by
  rcases complete_eq_next s t _ h with ⟨q, hq, rfl⟩ | ⟨f, hf, rfl⟩
  · split at hq
    · rw [nonRegisterArith_eq_ok false s d src q hq]
      exact .advance (.inr ⟨d, src, .inl rfl⟩)
    · next r hr =>
      split at hq
      · cases hq
      · next b hb =>
        cases hq
        exact .storeExact d src _ _ rfl (regNamed_writesTo s d r hr) (.inr (.inr rfl))
          ⟨d, src, s.reg r, b, regNamed_readsAs s d r hr, (resolveSrc_eq_ok_iff s src b).mp hb,
            .inr (.inr ⟨rfl, rfl⟩)⟩
  · refine .fault f ?_
    split at hf
    · exact nonRegisterArith_raise_ne_none false s d src f hf
    · split at hf
      · next hs => cases hf; exact resolveSrc_raise_ne_none s src f hs
      · cases hf

theorem execDiv_shape (s t : State) (d src : Token) (h : execDiv d src s = .next t) :
    NextShape (.div d src) s t := by
  rcases complete_eq_next s t _ h with ⟨q, hq, rfl⟩ | ⟨f, hf, rfl⟩
  · split at hq
    · rw [nonRegisterArith_eq_ok true s d src q hq]
      exact .advance (.inr ⟨d, src, .inr rfl⟩)
    · next r hr =>
      split at hq
      · cases hq
      · unfold divideReg at hq
        split at hq
        · cases hq
        · split at hq
          · cases hq
          · cases hq
            exact .store d _ _ rfl (regNamed_writesTo s d r hr)
  · refine .fault f ?_
    split at hf
    · exact nonRegisterArith_raise_ne_none true s d src f hf
    · split at hf
      · next hs => cases hf; exact resolveSrc_raise_ne_none s src f hs
      · unfold divideReg at hf
        split at hf
        · cases hf; decide
        · split at hf
          · cases hf; decide
          · cases hf

/-- Every next state of every instruction has one of the shapes of `NextShape`. -/
theorem exec_shape (i : Instr) (s t : State) (h : exec i s = .next t) : NextShape i s t := by
  cases i with
  | mov d src => exact execMov_shape s t d src h
  | add d src =>
    exact exact_shape _ s t d src (fun a b => a.toInt + b.toInt) (.inl rfl) rfl
      (fun a b ha hb => ⟨d, src, a, b, ha, hb, .inl ⟨rfl, rfl⟩⟩) h
  | sub d src =>
    exact exact_shape _ s t d src (fun a b => a.toInt - b.toInt) (.inr (.inl rfl)) rfl
      (fun a b ha hb => ⟨d, src, a, b, ha, hb, .inr (.inl ⟨rfl, rfl⟩)⟩) h
  | mul d src => exact execMul_shape s t d src h
  | div d src => exact execDiv_shape s t d src h
  | and d src => exact storing_shape _ s t d src (fun a b => a &&& b) rfl h
  | or d src => exact storing_shape _ s t d src (fun a b => a ||| b) rfl h
  | not d => exact execNot_shape s t d h
  | cmp d src =>
    rcases complete_eq_next s t _ h with ⟨q, hq, rfl⟩ | ⟨f, hf, rfl⟩
    · obtain ⟨p, a, b, -, ha, hb, rfl⟩ := withOperands_eq_ok s d src _ q hq
      exact .compare d src a b rfl ha hb
    · exact .fault f (withOperands_raise_ne_none s d src _ f hf)
  | jmp l => exact jump_shape _ s t l true (.inl rfl) h
  | jg l => exact jump_shape _ s t l _ (.inr (.inl rfl)) h
  | jl l => exact jump_shape _ s t l _ (.inr (.inr (.inl rfl))) h
  | je l => exact jump_shape _ s t l _ (.inr (.inr (.inr rfl))) h

/-! ### The turns of the loop -/

/-- A step is enabled exactly with `FAULT = 0` and `pc < instSize` (R100, R137). -/
theorem loopEnd_eq_none_iff (s : State) :
    loopEnd s = none ↔ s.fault = false ∧ (s.reg .pc).toInt < s.instSize := by
  unfold loopEnd
  cases s.fault <;> simp

theorem step_of_loopEnd (s : State) (why : Fault) (h : loopEnd s = some why) : step s = .fault why := by
  simp [step, runStep, h]

theorem step_of_enabled (s : State) (h : loopEnd s = none) : step s = cycle s := by
  simp [step, runStep, h]

/-- A next state of a step: the step was enabled, and it took a fault or ran the instruction in the cell at
`pc` (R103). -/
theorem step_eq_next (s t : State) (h : step s = .next t) :
    loopEnd s = none ∧
      ((∃ f, f ≠ .none ∧ t = takeFault s f) ∨
        ∃ i u, 0 ≤ (s.reg .pc).toInt ∧ s.mem.read (s.reg .pc).toNat = .instr u ∧
          decode s.cfg.labelMode u = .ok i ∧ exec i s = .next t) := by
  unfold step runStep at h
  split at h
  · cases h
  · next hl =>
    refine ⟨hl, ?_⟩
    unfold cycle at h
    split at h
    · next e he =>
      left
      unfold fetch at he
      split at he
      · cases he
        exact ⟨.pcRange, by decide, (Host.Outcome.next.inj h).symm⟩
      · split at he
        · cases he
        · cases he
          cases h
    · next u hu =>
      have hfetch : 0 ≤ (s.reg .pc).toInt ∧ s.mem.read (s.reg .pc).toNat = .instr u := by
        unfold fetch at hu
        split at hu
        · cases hu
        · split at hu
          · cases hu; exact ⟨by omega, by assumption⟩
          · cases hu
      split at h
      · next f hf =>
        left
        refine ⟨f, ?_, (Host.Outcome.next.inj h).symm⟩
        unfold decode decodeTokens at hf
        rintro rfl
        split at hf
        · cases hf
        · split at hf
          · cases hf
          · unfold decodeOperands at hf
            split at hf
            · split at hf <;> cases hf
            · cases hf
            · cases hf
            · cases hf
      · next i hi => exact .inr ⟨i, u, hfetch.1, hfetch.2, hi, h⟩

end Sys2Proof.Machine
end

