-- ==== Sys2Proof/Laws/Literals.lean ====
section
/-! SUPPORT. What the literal reader of the operand resolver answers: exactly the value a decimal literal
denotes (R79). -/

namespace Sys2Proof.Machine

theorem isDecimal_iff (c : Char) : isDecimal c = true ↔ '0' ≤ c ∧ c ≤ '9' := by
  simp [isDecimal]

/-- The digits are read in base 10, the last one the units. -/
theorem digitsValue_eq_ofDigits (ds : Text) :
    digitsValue ds = Nat.ofDigits 10 (ds.reverse.map (fun c => c.toNat - '0'.toNat)) := by
  induction ds using List.reverseRecOn with
  | nil => rfl
  | append_singleton l c ih =>
    have happ : digitsValue (l ++ [c]) = 10 * digitsValue l + (c.toNat - '0'.toNat) := by
      simp [digitsValue]
    rw [happ, ih, List.reverse_append, List.reverse_singleton, List.singleton_append, List.map_cons,
      Nat.ofDigits_cons, Nat.add_comm]

theorem unsignedLiteral_eq_some_iff (ds : Text) (n : Nat) :
    unsignedLiteral ds = some n ↔ ds ≠ [] ∧ (∀ c ∈ ds, '0' ≤ c ∧ c ≤ '9') ∧
      n = Nat.ofDigits 10 (ds.reverse.map (fun c => c.toNat - '0'.toNat)) := by
  have hcond : (!ds.isEmpty && ds.all isDecimal) = true ↔ ds ≠ [] ∧ ∀ c ∈ ds, '0' ≤ c ∧ c ≤ '9' := by
    simp [isDecimal_iff]
  unfold unsignedLiteral
  rw [← digitsValue_eq_ofDigits]
  split
  · next h =>
    have := hcond.mp h
    exact ⟨fun e => ⟨this.1, this.2, (Option.some.inj e).symm⟩, fun e => by rw [e.2.2]⟩
  · next h => exact iff_of_false (by simp) (fun e => h (hcond.mpr ⟨e.1, e.2.1⟩))

/-- What a sign and the digits after it give, and what is no sign at all. -/
theorem denotes_cons_iff (c : Char) (ds : Text) (v : Int) :
    Denotes (c :: ds) v ↔
      (∃ n, unsignedLiteral (c :: ds) = some n ∧ v = n) ∨ (c = '+' ∧ ∃ n, unsignedLiteral ds = some n ∧ v = n) ∨
        (c = '-' ∧ ∃ n, unsignedLiteral ds = some n ∧ v = -(n : Int)) := by
  simp only [unsignedLiteral_eq_some_iff]
  constructor
  · rintro ⟨sign, hs, es, h1, h2, h3, rfl⟩
    simp only [literalSigns, List.mem_cons, List.not_mem_nil, or_false] at hs
    rcases hs with rfl | rfl | rfl
    · simp only [List.nil_append] at h3
      exact .inl ⟨_, ⟨by simp, h3 ▸ h2, rfl⟩, by rw [h3]; simp⟩
    · simp only [List.singleton_append, List.cons.injEq] at h3
      exact .inr (.inl ⟨h3.1, _, ⟨h3.2 ▸ h1, h3.2 ▸ h2, rfl⟩, by rw [h3.2]; simp⟩)
    · simp only [List.singleton_append, List.cons.injEq] at h3
      exact .inr (.inr ⟨h3.1, _, ⟨h3.2 ▸ h1, h3.2 ▸ h2, rfl⟩, by rw [h3.2]; simp⟩)
  · rintro (⟨n, ⟨h1, h2, rfl⟩, rfl⟩ | ⟨rfl, n, ⟨h1, h2, rfl⟩, rfl⟩ | ⟨rfl, n, ⟨h1, h2, rfl⟩, rfl⟩)
    · exact ⟨([], 1), by simp [literalSigns], _, h1, h2, rfl, by simp⟩
    · exact ⟨(['+'], 1), by simp [literalSigns], _, h1, h2, rfl, by simp⟩
    · exact ⟨(['-'], -1), by simp [literalSigns], _, h1, h2, rfl, by simp⟩

/-- A sign is no digit. -/
theorem unsignedLiteral_sign (c : Char) (ds : Text) (h : c = '+' ∨ c = '-') : unsignedLiteral (c :: ds) = none := by
  rcases h with rfl | rfl <;> simp [unsignedLiteral, isDecimal]

/-- The literal reader answers exactly the value denoted, and so nothing for a text that is no literal. -/
theorem intLiteral_eq_some_iff (t : Text) (v : Int) : intLiteral t = some v ↔ Denotes t v := by
  cases t with
  | nil =>
    refine iff_of_false (by simp [intLiteral]) ?_
    rintro ⟨sign, -, ds, h1, -, h3, -⟩
    exact h1 (List.append_eq_nil_iff.mp h3.symm).2
  | cons c ds =>
    rw [denotes_cons_iff]
    unfold intLiteral
    by_cases hp : c = '+'
    · subst hp
      simp [unsignedLiteral_sign, eq_comm]
    · by_cases hm : c = '-'
      · subst hm
        simp [unsignedLiteral_sign, eq_comm]
      · simp [hp, hm, eq_comm]

theorem intLiteral_eq_none_iff (t : Text) : intLiteral t = none ↔ ∀ v, ¬ Denotes t v := by
  simp only [Option.eq_none_iff_forall_ne_some, ne_eq, intLiteral_eq_some_iff]

end Sys2Proof.Machine
end

