-- ==== Sys2Proof/Laws/Tokens.lean ====
section
/-! SUPPORT. Tokens of a text written from tokens (R72). -/

namespace Sys2Proof

/-- A token is not empty and holds no whitespace (R72). -/
def IsToken (tok : Token) : Prop :=
  tok ≠ [] ∧ ∀ c ∈ tok, isSpace c = false

theorem isToken_of_wf (tok : Token) (h : Token.wf tok = true) : IsToken tok := by
  simp only [Token.wf, Bool.and_eq_true, Bool.not_eq_true', List.isEmpty_eq_false_iff, List.all_eq_true] at h
  exact ⟨h.1, fun c hc => (h.2 c hc).1⟩

theorem isToken_comma : IsToken comma :=
  isToken_of_wf comma (by decide)

/-- A text that is one token has that token alone. -/
theorem tokens_of_isToken (tok : Token) (h : IsToken tok) : tokens tok = [tok] := by
  simp [tokens, List.splitOnP_eq_singleton h.2, h.1]

/-- The text before the first space is the first token. -/
theorem tokens_append_space (tok : Token) (rest : Text) (h : IsToken tok) :
    tokens (tok ++ ' ' :: rest) = tok :: tokens rest := by
  unfold tokens
  rw [List.splitOnP_append_cons_of_forall_mem h.2 ' ' (by decide)]
  simp [h.1]

/-- Writing tokens and reading them back gives the same tokens. -/
theorem tokens_joinTokens (l : List Token) (h : ∀ tok ∈ l, IsToken tok) : tokens (joinTokens l) = l := by
  induction l with
  | nil => rfl
  | cons tok rest ih =>
    have htok := h tok (List.mem_cons_self ..)
    cases rest with
    | nil => exact tokens_of_isToken tok htok
    | cons next rest =>
      rw [joinTokens, tokens_append_space tok _ htok, ih (fun t ht => h t (List.mem_cons_of_mem _ ht))]
      simp

end Sys2Proof
end

