-- ==== Sys2Proof/Laws/PerInstr.lean ====
section
/-! SUPPORT. Families of lemmas with one lemma for each instruction: the tokens of an encoded line, and what the
decoder reads from the tokens of an instruction. -/

namespace Sys2Proof.Laws

/-- A mnemonic, two tokens and the comma between them, written on a line, are read back. -/
theorem tokens_of_dual (m d s : Token) (hm : IsToken m) (hd : Token.wf d = true) (hs : Token.wf s = true) :
    tokens (joinTokens [m, d, comma, s]) = [m, d, comma, s] := by
  apply tokens_joinTokens
  simp only [List.mem_cons, List.not_mem_nil, or_false]
  rintro t (rfl | rfl | rfl | rfl)
  · exact hm
  · exact isToken_of_wf _ hd
  · exact isToken_comma
  · exact isToken_of_wf _ hs

/-- A mnemonic and a token, written on a line, are read back. -/
theorem tokens_of_single (m d : Token) (hm : IsToken m) (hd : Token.wf d = true) :
    tokens (joinTokens [m, d]) = [m, d] := by
  apply tokens_joinTokens
  simp only [List.mem_cons, List.not_mem_nil, or_false]
  rintro t (rfl | rfl)
  · exact hm
  · exact isToken_of_wf _ hd

/-- The tokens of the line of a well-formed instruction are its instruction tokens (R72, R76). -/
def EncodeTokens.Statement (i : Instr) : Prop :=
  Instr.wf i = true → tokens (encode i) = encodeTokens i

theorem EncodeTokens.mov (d s : Token) : EncodeTokens.Statement (.mov d s) := by
  intro h
  obtain ⟨hd, hs⟩ := (Bool.and_eq_true _ _).mp h
  exact tokens_of_dual ['M', 'O', 'V'] d s (isToken_of_wf _ (by decide)) hd hs

theorem EncodeTokens.add (d s : Token) : EncodeTokens.Statement (.add d s) := by
  intro h
  obtain ⟨hd, hs⟩ := (Bool.and_eq_true _ _).mp h
  exact tokens_of_dual ['A', 'D', 'D'] d s (isToken_of_wf _ (by decide)) hd hs

theorem EncodeTokens.sub (d s : Token) : EncodeTokens.Statement (.sub d s) := by
  intro h
  obtain ⟨hd, hs⟩ := (Bool.and_eq_true _ _).mp h
  exact tokens_of_dual ['S', 'U', 'B'] d s (isToken_of_wf _ (by decide)) hd hs

theorem EncodeTokens.mul (d s : Token) : EncodeTokens.Statement (.mul d s) := by
  intro h
  obtain ⟨hd, hs⟩ := (Bool.and_eq_true _ _).mp h
  exact tokens_of_dual ['M', 'U', 'L'] d s (isToken_of_wf _ (by decide)) hd hs

theorem EncodeTokens.div (d s : Token) : EncodeTokens.Statement (.div d s) := by
  intro h
  obtain ⟨hd, hs⟩ := (Bool.and_eq_true _ _).mp h
  exact tokens_of_dual ['D', 'I', 'V'] d s (isToken_of_wf _ (by decide)) hd hs

theorem EncodeTokens.and (d s : Token) : EncodeTokens.Statement (.and d s) := by
  intro h
  obtain ⟨hd, hs⟩ := (Bool.and_eq_true _ _).mp h
  exact tokens_of_dual ['A', 'N', 'D'] d s (isToken_of_wf _ (by decide)) hd hs

theorem EncodeTokens.or (d s : Token) : EncodeTokens.Statement (.or d s) := by
  intro h
  obtain ⟨hd, hs⟩ := (Bool.and_eq_true _ _).mp h
  exact tokens_of_dual ['O', 'R'] d s (isToken_of_wf _ (by decide)) hd hs

theorem EncodeTokens.not (d : Token) : EncodeTokens.Statement (.not d) :=
  fun h => tokens_of_single ['N', 'O', 'T'] d (isToken_of_wf _ (by decide)) h

theorem EncodeTokens.cmp (d s : Token) : EncodeTokens.Statement (.cmp d s) := by
  intro h
  obtain ⟨hd, hs⟩ := (Bool.and_eq_true _ _).mp h
  exact tokens_of_dual ['C', 'M', 'P'] d s (isToken_of_wf _ (by decide)) hd hs

theorem EncodeTokens.jmp (d : Token) : EncodeTokens.Statement (.jmp d) :=
  fun h => tokens_of_single ['J', 'M', 'P'] d (isToken_of_wf _ (by decide)) h

theorem EncodeTokens.jg (d : Token) : EncodeTokens.Statement (.jg d) :=
  fun h => tokens_of_single ['J', 'G'] d (isToken_of_wf _ (by decide)) h

theorem EncodeTokens.jl (d : Token) : EncodeTokens.Statement (.jl d) :=
  fun h => tokens_of_single ['J', 'L'] d (isToken_of_wf _ (by decide)) h

theorem EncodeTokens.je (d : Token) : EncodeTokens.Statement (.je d) :=
  fun h => tokens_of_single ['J', 'E'] d (isToken_of_wf _ (by decide)) h

/-- The decoder reads the instruction from its tokens, whatever the operand tokens are (R77). -/
def DecodeTokens.Statement (i : Instr) : Prop :=
  decodeTokens (encodeTokens i) = .ok i

theorem DecodeTokens.mov (d s : Token) : DecodeTokens.Statement (.mov d s) := rfl

theorem DecodeTokens.add (d s : Token) : DecodeTokens.Statement (.add d s) := rfl

theorem DecodeTokens.sub (d s : Token) : DecodeTokens.Statement (.sub d s) := rfl

theorem DecodeTokens.mul (d s : Token) : DecodeTokens.Statement (.mul d s) := rfl

theorem DecodeTokens.div (d s : Token) : DecodeTokens.Statement (.div d s) := rfl

theorem DecodeTokens.and (d s : Token) : DecodeTokens.Statement (.and d s) := rfl

theorem DecodeTokens.or (d s : Token) : DecodeTokens.Statement (.or d s) := rfl

theorem DecodeTokens.not (d : Token) : DecodeTokens.Statement (.not d) := rfl

theorem DecodeTokens.cmp (d s : Token) : DecodeTokens.Statement (.cmp d s) := rfl

theorem DecodeTokens.jmp (d : Token) : DecodeTokens.Statement (.jmp d) := rfl

theorem DecodeTokens.jg (d : Token) : DecodeTokens.Statement (.jg d) := rfl

theorem DecodeTokens.jl (d : Token) : DecodeTokens.Statement (.jl d) := rfl

theorem DecodeTokens.je (d : Token) : DecodeTokens.Statement (.je d) := rfl

end Sys2Proof.Laws
end

