-- ==== Sys2Proof/Tests/Slice0.lean ====
section
/-! SUPPORT. Tests of the model: ill-formed terms, one decoded line for each instruction, one or two single steps for
each instruction with the results spec/95_test_vectors.md states, the host's operations, and for each statement with
hypotheses a witness that meets them. -/

namespace Sys2Proof.Tests

open Sys2Proof.Machine

/-! ### Helpers -/

/-- The default context of 95_test_vectors.md: the line under test in cell 0 of five. -/
def ctx (line : String) : State :=
  load (some [line.toList, [], [], [], []]) State.reset

/-- A program loaded into a constructed machine with the given LABEL_MODE. -/
def prog (mode : LabelMode) (lines : List String) : State :=
  load (some (lines.map String.toList)) (State.construct { Config.standard with labelMode := mode })

/-- The state after one step; the state itself if the step does not answer one. -/
def after (s : State) : State :=
  match step s with
  | .next t => t
  | .fault _ => s
  | .refused _ => s

/-- Five lines used by the witnesses: a labelled line, a jump to it, a label alone, an instruction and a line that
does not decode. Cell 10 holds 5, AYB 7, BEN -2147483648 and CR `cr`. -/
def demoIn (mode : LabelMode) (cr : Int) : State :=
  ((((prog mode ["top: ADD [10] , AYB", "JMP top", "end:", "NOT BEN", "HALT"]).setCell 10 (.data 5)).setReg
    .ayb 7).setReg .ben (wrap32 (-2147483648))).setReg .cr (wrap32 cr)

/-- The witnesses' state in STATIC, after a comparison that found less. -/
def demo : State := demoIn .static (-1)

/-! ### Well-formedness: an ill-formed term for each check -/

theorem test_wf_refuses_empty : Instr.wf (.mov [] ['1']) = false := by decide
theorem test_wf_refuses_space : Instr.wf (.add ['A', ' '] ['1']) = false := by decide
theorem test_wf_refuses_tab_in_source : Instr.wf (.sub ['A'] ['\t']) = false := by decide
theorem test_wf_refuses_non_ascii : Instr.wf (.jmp ['é']) = false := by decide
theorem test_wf_accepts : Instr.wf (.mov "BEN".toList "24".toList) = true := by decide
theorem test_operand_wf_refuses_above : Operand.wf (.mem 100) = false := by decide
theorem test_operand_wf_refuses_below : Operand.wf (.mem (-10)) = false := by decide

/-! ### Decoding: a line of the spec's grammar for each instruction (R84) -/

theorem test_decode_mov : decode .static "MOV d , s".toList = .ok (.mov ['d'] ['s']) := by rfl
theorem test_decode_add : decode .static "ADD d , s".toList = .ok (.add ['d'] ['s']) := by rfl
theorem test_decode_sub : decode .static "SUB d , s".toList = .ok (.sub ['d'] ['s']) := by rfl
theorem test_decode_mul : decode .static "MUL d , s".toList = .ok (.mul ['d'] ['s']) := by rfl
theorem test_decode_div : decode .static "DIV d , s".toList = .ok (.div ['d'] ['s']) := by rfl
theorem test_decode_and : decode .static "AND d , s".toList = .ok (.and ['d'] ['s']) := by rfl
theorem test_decode_or : decode .static "OR d , s".toList = .ok (.or ['d'] ['s']) := by rfl
theorem test_decode_not : decode .static "NOT d".toList = .ok (.not ['d']) := by rfl
theorem test_decode_cmp : decode .static "CMP d , s".toList = .ok (.cmp ['d'] ['s']) := by rfl
theorem test_decode_jmp : decode .static "JMP L".toList = .ok (.jmp ['L']) := by rfl
theorem test_decode_jg : decode .static "JG L".toList = .ok (.jg ['L']) := by rfl
theorem test_decode_jl : decode .static "JL L".toList = .ok (.jl ['L']) := by rfl
theorem test_decode_je : decode .static "JE L".toList = .ok (.je ['L']) := by rfl

/-- 95 section 2.1: tabs separate tokens. -/
theorem test_decode_tabs :
    decode .rewrite "\tMOV\tBEN\t,\t24".toList = .ok (.mov "BEN".toList "24".toList) := by rfl

/-- 95 section 2.1: the lines that raise INCORRECT_INSTRUCTION. -/
theorem test_decode_incorrect :
    ["end:", "", "   ", "HALT", "mov AYB , [3]"].map (fun t => decode .static t.toList) =
      List.replicate 5 (.error .incorrectInstruction) := by rfl

/-- 95 section 2.1: the lines that raise FORMAT. -/
theorem test_decode_format :
    ["MOV BEN, 24", "MOV BEN ; 24", "MOV BEN , 24 , 5", "MOV AYB [3]", "NOT AYB , BEN", "JMP", "JMP a b"].map
      (fun t => decode .static t.toList) = List.replicate 7 (.error .format) := by rfl

/-- The bytes 4E 4F 54 20 44 41, first lowest, are the line NOT DA. -/
theorem test_table_word : decodeTableWord 48 0x414420544F4E = some (.not "DA".toList) := by rfl

/-- The opcode map lists each mnemonic once (R84). -/
theorem test_opcodes_distinct : (opcodeMap.map Prod.fst).Nodup := by decide

/-- 95 section 2.2: the classes of operand tokens. -/
theorem test_classify :
    ["BEN", "ayb", "[07]", "[+7]", "[-1]", "[99]", "[100]", "[a]", "[]"].map
      (fun t => classify RegNames.standard t.toList) =
      [some (.reg .ben), none, some (.mem 7), some (.mem 7), some (.mem (-1)), some (.mem 99), none, none, none] := by
  decide

/-- 95 section 2.2: the literals. -/
theorem test_classify_literals :
    ["2147483647", "-2147483648", "2147483648", "+5", "007", "5a", "0x10", "--5"].map
      (fun t => classify RegNames.standard t.toList) =
      [some (.imm 0x7FFFFFFF), some (.imm 0x80000000), none, some (.imm 5), some (.imm 7), none, none, none] := by
  decide

theorem test_default_config_admitted : configAdmitted Config.standard = true := by decide

/-! ### One step of each instruction (95 sections 2.3 to 2.9) -/

theorem test_mov_memory : (after (ctx "MOV [10] , -3")).mem.read 10 = .data (wrap32 (-3)) := by rfl
theorem test_mov_pc : (after (ctx "MOV PC , 5")).reg .pc = 6 := by rfl

theorem test_add_overflow :
    let t := after ((ctx "ADD AYB , 1").setReg .ayb 0x7FFFFFFF)
    t.reg .ayb = 0x80000000 ∧ t.reg .of = 1 ∧ t.reg .pc = 1 := by decide

/-- An overflow into OF itself ends with 1 (R104). -/
theorem test_add_into_of : (after ((ctx "ADD OF , 2147483647").setReg .of 1)).reg .of = 1 := by rfl

theorem test_sub_wraps :
    let t := after ((ctx "SUB AYB , 1").setReg .ayb 0x80000000)
    t.reg .ayb = 0x7FFFFFFF ∧ t.reg .of = 1 := by decide

theorem test_sub_no_overflow : (after ((ctx "SUB BEN , 10").setReg .ben 3)).reg .ben = wrap32 (-7) := by rfl

theorem test_mul_overflow :
    let t := after ((ctx "MUL AYB , 46341").setReg .ayb 46341)
    t.reg .ayb = wrap32 (-2147479015) ∧ t.reg .of = 1 := by decide

theorem test_mul_memory_idle :
    let t := after ((ctx "MUL [10] , 5").setCell 10 (.data 3))
    t.mem.read 10 = .data 3 ∧ t.reg .pc = 1 ∧ t.fault = false := by decide

theorem test_div_truncates : (after ((ctx "DIV AYB , 5").setReg .ayb (wrap32 (-17)))).reg .ayb = wrap32 (-3) := by rfl

theorem test_div_idle_zero :
    let t := after (ctx "DIV 5 , 0")
    t.fault = true ∧ t.fcause = .divZero ∧ t.reg .pc = 0 := by decide

theorem test_and : (after ((ctx "AND AYB , 15").setReg .ayb (wrap32 (-8)))).reg .ayb = 8 := by rfl
theorem test_or : (after ((ctx "OR AYB , 10").setReg .ayb 12)).reg .ayb = 14 := by rfl
theorem test_not : (after ((ctx "NOT DA").setReg .da 5)).reg .da = wrap32 (-6) := by rfl
theorem test_not_memory : (after (ctx "NOT [10]")).mem.read 10 = .data (wrap32 (-1)) := by rfl

theorem test_cmp_exact : (after ((ctx "CMP AYB , 1").setReg .ayb 0x80000000)).reg .cr = wrap32 (-1) := by rfl

theorem test_cmp_leaves_of :
    let t := after ((ctx "CMP AYB , -2147483648").setReg .ayb 0x7FFFFFFF)
    t.reg .cr = 1 ∧ t.reg .of = 0 := by decide

/-- J1 in STATIC: the label is recorded, the cell kept. -/
theorem test_jmp_static :
    let t := after (prog .static ["JMP L2", "L1: MOV AYB , 1", "L2: MOV BEN , 2"])
    t.reg .pc = 2 ∧ t.labels = [(2, "L2".toList)] ∧ t.mem.read 2 = .instr "L2: MOV BEN , 2".toList := by decide

/-- J1 in REWRITE: the target cell is stripped. -/
theorem test_jmp_rewrite :
    let t := after (prog .rewrite ["JMP L2", "L1: MOV AYB , 1", "L2: MOV BEN , 2"])
    t.reg .pc = 2 ∧ t.mem.read 2 = .instr "MOV BEN , 2".toList := by decide

/-- J3: a missing label faults although the jump is not taken. -/
theorem test_je_missing :
    let t := after ((prog .static ["JE nowhere"]).setReg .cr 1)
    t.fault = true ∧ t.fcause = .labelNotFound := by decide

theorem test_jg_taken : (after ((prog .static ["JG a", "HALT", "a: NOT DA"]).setReg .cr 1)).reg .pc = 2 := by rfl
theorem test_jl_taken :
    (after ((prog .static ["JL a", "HALT", "a: NOT DA"]).setReg .cr (wrap32 (-1)))).reg .pc = 2 := by rfl
theorem test_je_taken : (after (prog .static ["JE a", "HALT", "a: NOT DA"])).reg .pc = 2 := by rfl

/-- J4: a label-only target is malformed in both modes; J5: a trailing space makes it well formed in REWRITE. -/
theorem test_bad_target :
    (after (prog .static ["JMP end", "end: "])).fcause = .badTarget ∧
      (after (prog .rewrite ["JMP end", "end:"])).fcause = .badTarget ∧
      (after (prog .rewrite ["JMP end", "end: "])).mem.read 1 = .instr [] := by decide

/-! ### The loop, faults and the host's operations (95 sections 2.10 to 2.12) -/

/-- The increment wraps, and the next fetch has a negative `pc`. -/
theorem test_pc_wraps_and_faults :
    let t := after (after (ctx "MOV PC , 2147483647"))
    t.fcause = .pcRange ∧ t.reg .pc = 0x80000000 := by decide

/-- Section 2.11: operand 1 comes first. -/
theorem test_fault_priority :
    ["ADD [3] , [40]", "ADD [40] , [3]", "ADD 5 , [3]", "ADD x5 , [3]", "DIV AYB , [3]"].map
      (fun line => (after (ctx line)).fcause) =
      [.protection, .bounds, .operandShape, .operandSyntax, .protection] := by decide

/-- H6 and H7: 32 lines load, 33 do not. -/
theorem test_load_capacity :
    (load (some (List.replicate 32 [])) State.reset).instSize = 32 ∧
      faultQuery (load (some (List.replicate 33 [])) State.reset) = (true, 2) := by decide

/-- H3: clear leaves the program text and resets the rest. -/
theorem test_clear :
    let t := clear (after (ctx "MOV AYB , 5"))
    t.reg .ayb = 0 ∧ t.instSize = 0 ∧ t.mem.read 0 = .instr "MOV AYB , 5".toList := by decide

/-- Lines end at LF or CR LF, and nothing after the last terminator is no line (D37, log 11). -/
theorem test_source_lines : sourceLines "a\r\n\nb\n".toList = ["a".toList, [], "b".toList] := by decide

theorem test_with_fetch_word :
    step (State.reset.withFetchWord 48 0x414420544F4E) =
      exec (.not "DA".toList) (State.reset.withFetchWord 48 0x414420544F4E) := by rfl

/-! ### Witnesses: the hypotheses of each statement, met together -/

theorem witness_DecodeInvertsEncode : Instr.wf (.cmp "[12]".toList "-3".toList) = true := by decide

theorem witness_LabelPrefixByMode :
    Token.wf ("loop".toList ++ [':']) = true ∧ Instr.wf (.not "GIM".toList) = true := by decide

theorem witness_SpelledOperandClassifies :
    regNamesAdmitted RegNames.standard = true ∧ Operand.wf (.mem (-9)) = true ∧ Operand.wf (.mem 99) = true := by
  decide

/-- A literal at each end of the `int32` range and one past it, with a sign or leading zeros, and R79's tokens
that are no literal. -/
theorem witness_LiteralRange :
    regNamesAdmitted RegNames.standard = true ∧
      (Denotes "+002147483647".toList 2147483647 ∧ Denotes "2147483648".toList 2147483648 ∧
        Denotes "-2147483648".toList (-2147483648) ∧ Denotes "-0".toList 0) ∧
      ∀ tok ∈ ["5a".toList, "--5".toList, "0x10".toList, "1_000".toList, "+".toList, "[5x".toList],
        (∀ v, ¬ Denotes tok v) ∧ regNamed RegNames.standard tok = none ∧
          ¬ (tok.head? = some '[' ∧ tok.getLast? = some ']') := by
  simp only [← intLiteral_eq_none_iff]
  simp only [← intLiteral_eq_some_iff]
  decide

theorem witness_BracketLength :
    let tok := "[100]".toList
    regNamed RegNames.standard tok = none ∧ tok.head? = some '[' ∧ tok.length ≠ 3 ∧ tok.length ≠ 4 := by decide

/-- Both lengths, signed and with a leading zero, and an N that is no literal. -/
theorem witness_BracketedAddress :
    regNamesAdmitted RegNames.standard = true ∧
      ("7".toList.length = 1 ∧ Denotes "7".toList 7) ∧ ("07".toList.length = 2 ∧ Denotes "07".toList 7) ∧
      ("-9".toList.length = 2 ∧ Denotes "-9".toList (-9)) ∧
      ("+x".toList.length = 2 ∧ (∀ v, ¬ Denotes "+x".toList v) ∧ regNamed RegNames.standard "[+x]".toList = none) := by
  simp only [← intLiteral_eq_none_iff]
  simp only [← intLiteral_eq_some_iff]
  decide

theorem witness_LoadPlacesLines : (List.replicate 32 ([] : Text)).length ≤ State.reset.cfg.memSize := by decide

theorem witness_FailedLoadLatches :
    State.reset.cfg.memSize < (List.replicate 33 ([] : Text)).length ∧
      ((none : Option (List Text)) = none ∧ FaultCause.ioOpen = .ioOpen) := by decide

/-- A run that ends normally, and one that ends in a fault. -/
theorem witness_RunEndKinds_RunEndIsFinal :
    (∃ t, execute 2 (prog .static ["MOV AYB , 5"]) = .ended .normalHalt t) ∧
      ∃ t, execute 2 (prog .static ["DIV AYB , 0"]) = .ended .faultHalt t :=
  ⟨⟨_, rfl⟩, ⟨_, rfl⟩⟩

theorem witness_StepRunsDecoded :
    demo.fault = false ∧ 0 ≤ (demo.reg .pc).toInt ∧ (demo.reg .pc).toInt < demo.instSize ∧
      demo.mem.read (demo.reg .pc).toInt.toNat = .instr "top: ADD [10] , AYB".toList ∧
      decode demo.cfg.labelMode "top: ADD [10] , AYB".toList = .ok (.add "[10]".toList "AYB".toList) :=
  ⟨rfl, by decide, by decide, by decide, rfl⟩

theorem witness_StepTakesDecodeFault :
    let s := demo.setReg .pc 4
    s.fault = false ∧ 0 ≤ (s.reg .pc).toInt ∧ (s.reg .pc).toInt < s.instSize ∧
      s.mem.read (s.reg .pc).toInt.toNat = .instr "HALT".toList ∧
      decode s.cfg.labelMode "HALT".toList = .error .incorrectInstruction :=
  ⟨rfl, by decide, by decide, by decide, rfl⟩

theorem witness_NegativePcFaults :
    (demo.setReg .pc (wrap32 (-1))).fault = false ∧ ((demo.setReg .pc (wrap32 (-1))).reg .pc).toInt < 0 := by decide

theorem witness_NoStepAfterEnd :
    (takeFault demo .format).fault = true ∧ (demo.setReg .pc 5).fault = false ∧
      ((demo.setReg .pc 5).instSize : Int) ≤ ((demo.setReg .pc 5).reg .pc).toInt := by decide

theorem witness_PlacedWordRuns :
    decode State.reset.cfg.labelMode (wordText 48 0x414420544F4E) = .ok (.not "DA".toList) := by rfl

/-- A loaded state with the invariant in which a step is enabled. -/
theorem witness_EnabledStepCompletes_StepKeepsInv_HostKeepsInv :
    MachineInv (prog .static ["NOT BEN"]) ∧ (prog .static ["NOT BEN"]).fault = false ∧
      ((prog .static ["NOT BEN"]).reg .pc).toInt < (prog .static ["NOT BEN"]).instSize ∧
      ∃ t, step (prog .static ["NOT BEN"]) = .next t := by
  refine ⟨⟨by decide, by decide, by decide, by decide, by decide, by decide, ?_⟩, by decide, by decide, _, rfl⟩
  intro _ _
  constructor
  · intro a ha
    have : a = 0 := by
      have : a < 1 := ha
      omega
    exact this ▸ ⟨_, rfl⟩
  · intro a ha
    have h1 : 1 ≤ a := ha
    refine ⟨0, ?_⟩
    show (lineCells 0 ["NOT BEN".toList]).read a = .data 0
    rw [lineCells_read, List.getElem?_eq_none (by simpa using h1)]
    simp [blankCell]

theorem witness_FaultsArePrecise :
    ∃ t, step (prog .static ["DIV AYB , 0"]) = .next t ∧ t.fault = true := ⟨_, rfl, rfl⟩

theorem witness_UnwritableState :
    ∃ t, exec (.mov "AYB".toList "1".toList) (takeFault demo .format) = .next t ∧
      (takeFault demo .format).fault = true := ⟨_, rfl, rfl⟩

theorem witness_StaticCodeUnchanged :
    demo.cfg.labelMode = .static ∧ (∃ t, exec (.jmp "top".toList) demo = .next t) ∧ 4 < demo.instSize :=
  ⟨rfl, ⟨_, rfl⟩, by decide⟩

theorem witness_RewriteStripsTargetOnly :
    ∃ t, exec (.jmp "top".toList) (demoIn .rewrite 0) = .next t ∧ (demoIn .rewrite 0).cfg.labelMode = .rewrite ∧
      0 < (demoIn .rewrite 0).instSize ∧ t.mem.read 0 ≠ (demoIn .rewrite 0).mem.read 0 :=
  ⟨_, rfl, rfl, by decide, by decide⟩

theorem witness_UnnamedRegistersInert :
    Reg.gim ∈ [Reg.ayb, .ben, .gim, .da] ∧
      ∀ tok ∈ operandTokens (.add "AYB".toList "BEN".toList), regNamed demo.cfg.regNames tok ≠ some .gim := by decide

theorem witness_ComparisonWriters :
    ∃ t, exec (.cmp "AYB".toList "7".toList) demo = .next t ∧ t.reg .cr ≠ demo.reg .cr := ⟨_, rfl, by decide⟩

theorem witness_OverflowWriters :
    ∃ t, exec (.sub "BEN".toList "1".toList) demo = .next t ∧ t.reg .of ≠ demo.reg .of := ⟨_, rfl, by decide⟩

theorem witness_ProgramCounterMoves :
    ∃ t, exec (.mov "PC".toList "3".toList) demo = .next t ∧ demo.fault = false := ⟨_, rfl, rfl⟩

/-- Register, cell and flag destinations; register, cell and immediate sources. -/
theorem witness_MovStores_AddSubStore_AndOrStore_CmpSetsSign :
    Memory.wf demo.mem = true ∧
      (writesTo demo "[10]".toList (.cell 10) = true ∧ readsAs demo "[10]".toList 5 = true ∧
        readsAs demo "AYB".toList 7 = true) ∧
      (writesTo demo "OF".toList (.reg .of) = true ∧ readsAs demo "OF".toList 0 = true ∧
        readsAs demo "[5]".toList 0 = true) ∧
      (writesTo demo "[31]".toList (.cell 31) = true ∧ readsAs demo "[31]".toList 0 = true ∧
        readsAs demo "-1".toList (wrap32 (-1)) = true) := by decide

theorem witness_MulStores :
    Memory.wf demo.mem = true ∧ writesTo demo "BEN".toList (.reg .ben) = true ∧
      readsAs demo "-1".toList (wrap32 (-1)) = true := by decide

/-- The most negative dividend by 1 completes. -/
theorem witness_DivStores :
    Memory.wf demo.mem = true ∧ writesTo demo "BEN".toList (.reg .ben) = true ∧
      readsAs demo "1".toList 1 = true ∧ (1 : Word).toInt ≠ 0 ∧
      ¬ ((demo.reg .ben).toInt = -2147483648 ∧ (1 : Word).toInt = -1) := by decide

theorem witness_DivFaults :
    demo.fault = false ∧ writesTo demo "BEN".toList (.reg .ben) = true ∧
      (readsAs demo "0".toList 0 = true ∧ (0 : Word).toInt = 0) ∧
      (readsAs demo "-1".toList (wrap32 (-1)) = true ∧ (demo.reg .ben).toInt = -2147483648 ∧
        (wrap32 (-1)).toInt = -1) := by decide

theorem witness_MulDivIdle :
    demo.fault = false ∧ isIdleDest demo "[5]".toList = true ∧ isIdleDest demo "3".toList = true ∧
      (readsAs demo "[31]".toList 0 = true ∧ (0 : Word).toInt = 0) ∧
      (readsAs demo "AYB".toList 7 = true ∧ (7 : Word).toInt ≠ 0) := by decide

theorem witness_NotStores :
    Memory.wf demo.mem = true ∧ writesTo demo "[10]".toList (.cell 10) = true ∧
      readsAs demo "[10]".toList 5 = true := by decide

/-- Each of the three comparisons, and a later state with the same `CR`. -/
theorem witness_CmpOneCondition :
    ∀ src ∈ ["4".toList, "5".toList, "AYB".toList],
      ∃ t u, exec (.cmp "[10]".toList src) demo = .next t ∧ t.fault = false ∧ u ≠ t ∧ u.reg .cr = t.reg .cr := by
  intro src hsrc
  simp only [List.mem_cons, List.not_mem_nil, or_false] at hsrc
  rcases hsrc with rfl | rfl | rfl <;> exact ⟨_, State.setReg _ .pc 4, rfl, rfl, by decide, rfl⟩

theorem witness_SubUndoesAdd_NotTwiceRestores :
    Reg.ayb ≠ .pc ∧ Reg.ayb ≠ .of ∧ classify demo.cfg.regNames "AYB".toList = some (.reg .ayb) ∧
      classify demo.cfg.regNames "2147483647".toList = some (.imm 0x7FFFFFFF) := by decide

theorem witness_NotPcNegates : classify demo.cfg.regNames "PC".toList = some (.reg .pc) := by decide

/-- The last address below `instSize`, a negative one, and the first at `MEM_SIZE`. -/
theorem witness_DestAddressFaults_SourceAddressFaults :
    demo.fault = false ∧
      (classify demo.cfg.regNames "[4]".toList = some (.mem 4) ∧ (4 : Int) < demo.instSize) ∧
      (classify demo.cfg.regNames "[-1]".toList = some (.mem (-1)) ∧ (-1 : Int) < demo.instSize) ∧
      (classify demo.cfg.regNames "[32]".toList = some (.mem 32) ∧ (demo.instSize : Int) ≤ 32 ∧
        (demo.cfg.memSize : Int) ≤ 32) ∧
      (writesTo demo "AYB".toList (.reg .ayb) = true ∧ readsAs demo "AYB".toList 7 = true) ∧
      isIdleDest demo "[5]".toList = true := by decide

theorem witness_ImmediateDestFaults :
    demo.fault = false ∧ classify demo.cfg.regNames "5".toList = some (.imm 5) := by decide

theorem witness_DestSyntaxFaults_SourceSyntaxFaults :
    demo.fault = false ∧ classify demo.cfg.regNames "x5".toList = none ∧
      (writesTo demo "[10]".toList (.cell 10) = true ∧ readsAs demo "[10]".toList 5 = true) ∧
      isIdleDest demo "5".toList = true := by decide

/-- In both modes, and for each condition of the conditional jumps. -/
theorem witness_JmpTaken_ConditionalJumpTaken :
    (∀ e ∈ conditionalJumps, (((demoIn .static e.2).reg .cr).toInt = e.2)) ∧
      (∀ mode ∈ [LabelMode.static, .rewrite], ∀ cr ∈ [(1 : Int), -1, 0],
        rising (demoIn mode cr).labels = true ∧ firstLabel (demoIn mode cr) (labelName "top:".toList) 0 = true ∧
          (demoIn mode cr).mem.read 0 = .instr "top: ADD [10] , AYB".toList ∧
          targetOk (demoIn mode cr) "top: ADD [10] , AYB".toList = true) := by decide

/-- A value of `CR` outside the three takes none of them; one label is missing, one is there. -/
theorem witness_ConditionalJumpNotTaken_MissingLabelFaults :
    (∀ e ∈ conditionalJumps, ((demoIn .static 2).reg .cr).toInt ≠ e.2) ∧ (demoIn .static 2).fault = false ∧
      noLabel (demoIn .static 2) (labelName "nowhere".toList) = true ∧
      firstLabel (demoIn .static 2) (labelName "end".toList) 2 = true := by decide

theorem witness_BadTargetFaults :
    demo.fault = false ∧ firstLabel demo (labelName "end".toList) 2 = true ∧
      demo.mem.read 2 = .instr "end:".toList ∧ targetOk demo "end:".toList = false ∧
      (∀ e ∈ conditionalJumps, (((demoIn .rewrite e.2).reg .cr).toInt = e.2)) ∧
      targetOk (demoIn .rewrite 0) "end:".toList = false := by decide

theorem witness_JumpSpellingsAgree : endsInColon "skip".toList = false := by decide

/-- A target that begins with its label, and one that begins with a space (R214). -/
theorem witness_NextFetchSeesStripped :
    (demoIn .rewrite 0).cfg.labelMode = .rewrite ∧
      firstLabel (demoIn .rewrite 0) (labelName "top".toList) 0 = true ∧
      (demoIn .rewrite 0).mem.read 0 = .instr ("top:".toList ++ ' ' :: "ADD [10] , AYB".toList) ∧
      ' ' ∉ "top:".toList ∧ (0 : Nat) < 2147483648 ∧
      (firstLabel ((demoIn .rewrite 0).setCell 0 (.instr " top: NOT DA".toList)) (labelName "top".toList) 0 = true ∧
        ((demoIn .rewrite 0).setCell 0 (.instr " top: NOT DA".toList)).mem.read 0 =
          .instr ([] ++ ' ' :: "top: NOT DA".toList) ∧ ' ' ∉ ([] : Text)) := by decide

end Sys2Proof.Tests
end

section
/-! The constructed state (R36, R270): one lemma for each field, the end of the loop in it, and the obligation on
construction. -/

namespace Sys2Proof.Machine

/-! ### The fields of a constructed machine -/

section
variable (cfg : Config)

@[simp] theorem construct_cfg : (State.construct cfg).cfg = cfg := rfl
@[simp] theorem construct_regs : (State.construct cfg).regs = Regs.zero := rfl
@[simp] theorem construct_instSize : (State.construct cfg).instSize = 0 := rfl
@[simp] theorem construct_mem : (State.construct cfg).mem = [] := rfl
@[simp] theorem construct_fault : (State.construct cfg).fault = false := rfl
@[simp] theorem construct_fcause : (State.construct cfg).fcause = .none := rfl
@[simp] theorem construct_labels : (State.construct cfg).labels = [] := rfl

end

/-- No register of a constructed machine is left unset (R36, R270). -/
@[simp] theorem reg_construct (cfg : Config) (r : Reg) : (State.construct cfg).reg r = 0 := by cases r <;> rfl

/-- Every cell of a constructed machine is `Data(0)` (R270). -/
theorem read_construct (cfg : Config) (a : Nat) : (State.construct cfg).mem.read a = .data 0 := by
  rw [construct_mem, memory_read_nil, blankCell]

/-! ### Where the loop ends normally -/

/-- The loop test ends a run normally exactly with `FAULT = 0` and `pc` at or past `instSize` (R100, R107). -/
theorem loopEnd_eq_normalHalt_iff (s : State) :
    loopEnd s = some .normalHalt ↔ s.fault = false ∧ (s.instSize : Int) ≤ (s.reg .pc).toInt := by
  unfold loopEnd
  cases s.fault <;> simp

/-- With nothing loaded and `pc` 0, no step is enabled (R100). -/
theorem step_construct (cfg : Config) : step (State.construct cfg) = .fault .normalHalt := by
  have hend : loopEnd (State.construct cfg) = some .normalHalt := by
    rw [loopEnd_eq_normalHalt_iff]
    simp
  exact step_of_loopEnd _ _ hend

/-! ### The obligation -/

/-- Settles O8, from the fields of a constructed machine and the loop test in it. -/
theorem constructionZeroes : Obligations.ConstructionZeroes := by
  unfold Obligations.ConstructionZeroes
  refine ⟨fun cfg => ?_, rfl, rfl⟩
  exact ⟨reg_construct cfg, construct_instSize cfg, construct_fault cfg, construct_fcause cfg,
    construct_labels cfg, read_construct cfg, step_construct cfg⟩

end Sys2Proof.Machine
end

section
/-! What the shared operations leave alone, for every state: destinations, the commit of a destination write, and
landing a jump. Nothing here takes memory or the label table to be canonical. -/

namespace Sys2Proof.Machine

/-! ### Destinations -/

/-- A token writes a register exactly when it names it (R78, R113). -/
theorem writesTo_reg_iff (s : State) (d : Token) (r : Reg) :
    writesTo s d (.reg r) = true ↔ classify s.cfg.regNames d = some (.reg r) := by
  unfold writesTo
  cases classify s.cfg.regNames d with
  | none => simp
  | some o =>
    cases o with
    | reg q =>
      simp only [beq_iff_eq, Place.reg.injEq, Option.some.injEq, Operand.reg.injEq]
      exact eq_comm
    | mem a => simp
    | imm v => simp

/-- A token writes cells of the data region only (R53). -/
theorem writesTo_cell_bounds (s : State) (d : Token) (a : Nat) (h : writesTo s d (.cell a) = true) :
    s.instSize ≤ a ∧ a < s.cfg.memSize := by
  unfold writesTo at h
  split at h
  · simp at h
  · simp only [Bool.and_eq_true, decide_eq_true_eq, beq_iff_eq, Place.cell.injEq] at h
    obtain ⟨⟨hlow, hhigh⟩, rfl⟩ := h
    omega
  · simp at h
  · simp at h

/-- A register among those of the place an instruction writes is its named destination. -/
theorem namesDest_of_mem_placeRegs (s : State) (i : Instr) (d : Token) (p : Place) (r : Reg)
    (hd : destToken i = some d) (hp : writesTo s d p = true) (hr : r ∈ placeRegs p) : namesDest s i r := by
  cases p with
  | cell a => simp [placeRegs] at hr
  | reg q =>
    obtain rfl : r = q := by simpa [placeRegs] using hr
    exact ⟨d, hd, (writesTo_reg_iff s d r).mp hp⟩

/-- No destination write reaches an instruction cell (R53, R65). -/
theorem read_writePlace_of_lt_instSize (s : State) (d : Token) (p : Place) (v : Word) (a : Nat)
    (hp : writesTo s d p = true) (ha : a < s.instSize) :
    (s.writePlace p v).mem.read a = s.mem.read a := by
  refine read_writePlace_other s p v a ?_
  cases p with
  | reg r => simp [placeCells]
  | cell b =>
    obtain ⟨hb, -⟩ := writesTo_cell_bounds s d b hp
    simp only [placeCells, List.mem_singleton]
    omega

/-! ### The three stages of a commit -/

/-- Step 1 of a commit (R104). -/
def writeDest (s : State) (dest : Option (Place × Word)) : State :=
  match dest with
  | none => s
  | some (p, w) => s.writePlace p w

/-- Step 2 of a commit (R104). -/
def writeFlag (s : State) (ovf : Bool) : State :=
  if ovf then s.setReg .of 1 else s

/-- Steps 3 and 4 of a commit (R104). -/
def writeControl (s : State) (control : Control) : State :=
  match control with
  | .next => s.advance
  | .jump a name => s.land a name

theorem commit_eq_stages (s : State) (q : Pending) :
    commit s q = writeControl (writeFlag (writeDest s q.dest) q.ovf) q.control := rfl

section
variable (s t : State)

/-- `t` has the parameters, `instSize`, the fault flag and cause, and the draw counter of `s`. -/
def SameFrame : Prop :=
  t.cfg = s.cfg ∧ t.instSize = s.instSize ∧ t.fault = s.fault ∧ t.fcause = s.fcause ∧ t.freeCtr = s.freeCtr

theorem sameFrame_writeDest (dest : Option (Place × Word)) : SameFrame s (writeDest s dest) := by
  cases dest with
  | none => simp [SameFrame, writeDest]
  | some e => simp [SameFrame, writeDest]

theorem sameFrame_writeFlag (ovf : Bool) : SameFrame s (writeFlag s ovf) := by
  cases ovf with
  | false => simp [SameFrame, writeFlag]
  | true => simp [SameFrame, writeFlag]

theorem sameFrame_writeControl (control : Control) : SameFrame s (writeControl s control) := by
  cases control with
  | next => simp [SameFrame, writeControl]
  | jump a name => simp [SameFrame, writeControl]

variable {s t}

theorem sameFrame_fault (h : SameFrame s t) : t.fault = s.fault := by
  obtain ⟨-, -, hfault, -⟩ := h
  exact hfault

theorem sameFrame_trans {u : State} (h : SameFrame s t) (h' : SameFrame t u) : SameFrame s u := by
  obtain ⟨hcfg, hsize, hfault, hcause, hctr⟩ := h
  obtain ⟨hcfg', hsize', hfault', hcause', hctr'⟩ := h'
  exact ⟨hcfg'.trans hcfg, hsize'.trans hsize, hfault'.trans hfault, hcause'.trans hcause, hctr'.trans hctr⟩

/-- No commit writes `instSize`, a parameter, the draw counter, `FAULT` or `FCAUSE` (R104). -/
theorem sameFrame_commit (s : State) (q : Pending) : SameFrame s (commit s q) := by
  rw [commit_eq_stages]
  exact sameFrame_trans (sameFrame_trans (sameFrame_writeDest s q.dest) (sameFrame_writeFlag _ q.ovf))
    (sameFrame_writeControl _ q.control)

end

/-! ### The commit of a destination write, with or without the overflow write -/

section
variable (s : State) (p : Place) (v : Word) (ovf : Bool)

/-- Destination, overflow, increment, in this order (R104). -/
theorem commit_dest_flag : commit s { dest := some (p, v), ovf := ovf } =
    (if ovf then (s.writePlace p v).setReg .of 1 else s.writePlace p v).advance := rfl

/-- The cells are those of the destination write. -/
@[simp] theorem commit_dest_mem :
    (commit s { dest := some (p, v), ovf := ovf }).mem = (s.writePlace p v).mem := by
  rw [commit_dest_flag, advance_mem]
  cases ovf <;> rfl

/-- An overflow leaves 1 in `OF`, whatever the destination was (R104, R150). -/
theorem reg_of_commit_overflow : (commit s { dest := some (p, v), ovf := true }).reg .of = 1 := by
  rw [commit_dest_ovf, reg_advance_other _ _ (by decide), reg_setReg_same]

variable {p ovf}

/-- A register that is neither `PC`, nor the destination, nor `OF` on an overflow, keeps its value. -/
theorem reg_commit_dest_other {r : Reg} (hpc : r ≠ .pc) (hp : r ∉ placeRegs p)
    (hovf : ovf = true → r ≠ .of) : (commit s { dest := some (p, v), ovf := ovf }).reg r = s.reg r := by
  rw [commit_dest_flag, reg_advance_other _ r hpc]
  cases ovf with
  | false => exact reg_writePlace_other s p v r hp
  | true => exact (reg_setReg_other _ .of r 1 (hovf rfl)).trans (reg_writePlace_other s p v r hp)

/-- A destination other than `PC` leaves `pc` to the increment (R26, R28). -/
theorem pcAdvanced_commit_dest (hp : .pc ∉ placeRegs p) :
    PcAdvanced s (commit s { dest := some (p, v), ovf := ovf }) := by
  have hpc := reg_writePlace_other s p v .pc hp
  rw [PcAdvanced, commit_dest_flag, advance_pc]
  cases ovf <;> simp [reg_setReg, hpc]

end

/-! ### The flags -/

/-- `OF` is written exactly when the exact result overflows (R150). -/
theorem overflows_iff (s : State) (e : Int) : overflows s.cfg.ovfMode e = true ↔ Overflowing s e := by
  unfold overflows Overflowing
  cases s.cfg.ovfMode with
  | inert => simp
  | exact =>
    simp only [isInt32, Bool.not_eq_true', Bool.and_eq_false_iff, decide_eq_false_iff_not, true_and]
    omega

/-- A comparison answers -1, 0 or +1 (R200). -/
theorem compareValue_toInt (a b : Word) :
    (compareValue a b).toInt = -1 ∨ (compareValue a b).toInt = 0 ∨ (compareValue a b).toInt = 1 := by
  unfold compareValue
  split
  · exact .inl (by decide)
  · split
    · exact .inr (.inl (by decide))
    · exact .inr (.inr (by decide))

/-! ### Landing a jump -/

/-- The cell a label is found in is an instruction cell (R211). -/
theorem firstLabel_lt (s : State) (name : Text) (a : Nat) (h : firstLabel s name a = true) :
    a < s.instSize := by
  simp only [firstLabel, Bool.and_eq_true, decide_eq_true_eq] at h
  obtain ⟨⟨hlt, -⟩, -⟩ := h
  exact hlt

theorem land_static (s : State) (a : Nat) (name : Text) (h : s.cfg.labelMode = .static) :
    s.land a name = { s with labels := s.labels.record a name }.setReg .pc (pcOfCell a) := by
  simp [State.land, h]

theorem land_rewrite (s : State) (a : Nat) (name : Text) (h : s.cfg.labelMode = .rewrite) :
    s.land a name = ({ s with labels := s.labels.record a name }.setCell a
      (.instr (strip (cellText (s.mem.read a))))).setReg .pc (pcOfCell a) := by
  simp [State.land, h]

/-- Only an instruction cell has a text with a space in it. -/
theorem eq_instr_of_cellText_eq (c : Cell) (before after : Text)
    (h : cellText c = before ++ ' ' :: after) : c = .instr (before ++ ' ' :: after) := by
  cases c with
  | instr t => exact congrArg Cell.instr h
  | data v => simp [cellText] at h

/-- In REWRITE landing on a well-formed target leaves what followed the first space of its text (R214). -/
theorem land_strips (s : State) (a : Nat) (name : Text) (h : s.cfg.labelMode = .rewrite)
    (ht : targetOk s (cellText (s.mem.read a)) = true) :
    ∃ before after, s.mem.read a = .instr (before ++ ' ' :: after) ∧ ' ' ∉ before ∧
      (s.land a name).mem.read a = .instr after := by
  obtain ⟨before, after, htext, hbefore⟩ := exists_first_space _ (by simpa [targetOk, h] using ht)
  refine ⟨before, after, eq_instr_of_cellText_eq _ _ _ htext, hbefore, ?_⟩
  rw [land_mem_rewrite s a name h, memory_read_write_same_of_not_blank _ _ _ (by simp [blankCell]), htext,
    strip_append before after hbefore]

end Sys2Proof.Machine
end

section
/-! The invariant of the machine (R30 to R32, R50, R52): what each operation needs to keep it, and that
construction has it and every step keeps it. -/

namespace Sys2Proof.Machine

/-! ### Operations that keep the invariant -/

/-- The invariant does not speak of registers. -/
theorem machineInv_setReg_iff (s : State) (r : Reg) (v : Word) : MachineInv (s.setReg r v) ↔ MachineInv s :=
  Iff.rfl

theorem machineInv_advance_iff (s : State) : MachineInv s.advance ↔ MachineInv s :=
  Iff.rfl

/-- A fault taken with a cause keeps the invariant: no program can run then, so nothing is asked of the regions. -/
theorem machineInv_takeFault (s : State) (f : FaultCause) (hf : f ≠ .none) (h : MachineInv s) :
    MachineInv (takeFault s f) := by
  obtain ⟨hwf, hbelow, hrising, hlabels, hsize, hcause, -⟩ := h
  refine ⟨hwf, hbelow, hrising, hlabels, hsize, iff_of_true rfl ?_, fun hno => absurd hno (by simp)⟩
  rw [takeFault_fcause]
  split
  · next hset => exact hcause.mp hset
  · exact hf

theorem regions_setCell_data (s : State) (a : Nat) (v : Word) (hm : Memory.wf s.mem = true)
    (ha : s.instSize ≤ a) (h : Regions s) : Regions (s.setCell a (.data v)) := by
  obtain ⟨hinstr, hdata⟩ := h
  refine ⟨fun b hb => ?_, fun b hb => ?_⟩
  · rw [setCell_instSize] at hb
    rw [setCell_mem, memory_read_write_other _ _ _ _ (by omega)]
    exact hinstr b hb
  · by_cases hba : b = a
    · subst hba
      exact ⟨v, memory_read_write_same _ _ _ hm⟩
    · rw [setCell_mem, memory_read_write_other _ _ _ _ hba]
      exact hdata b hb

theorem regions_setCell_instr (s : State) (a : Nat) (t : Text) (hm : Memory.wf s.mem = true)
    (ha : a < s.instSize) (h : Regions s) : Regions (s.setCell a (.instr t)) := by
  obtain ⟨hinstr, hdata⟩ := h
  refine ⟨fun b hb => ?_, fun b hb => ?_⟩
  · by_cases hba : b = a
    · subst hba
      exact ⟨t, memory_read_write_same _ _ _ hm⟩
    · rw [setCell_mem, memory_read_write_other _ _ _ _ hba]
      exact hinstr b hb
  · rw [setCell_instSize] at hb
    rw [setCell_mem, memory_read_write_other _ _ _ _ (by omega)]
    exact hdata b hb

/-- A cell of memory may take whatever keeps the two regions. -/
theorem machineInv_setCell (s : State) (a : Nat) (c : Cell) (ha : a < s.cfg.memSize)
    (hc : Regions s → Regions (s.setCell a c)) (h : MachineInv s) : MachineInv (s.setCell a c) := by
  obtain ⟨hwf, hbelow, hrising, hlabels, hsize, hcause, hregions⟩ := h
  exact ⟨memory_write_wf _ _ _ hwf, memory_write_below _ _ _ _ hbelow ha, hrising, hlabels, hsize, hcause,
    fun hno hpos => hc (hregions hno hpos)⟩

/-- A destination write stays in the data region and writes data (R53, R113). -/
theorem machineInv_writePlace (s : State) (d : Token) (p : Place) (v : Word) (hp : writesTo s d p = true)
    (h : MachineInv s) : MachineInv (s.writePlace p v) := by
  cases p with
  | reg r => exact (machineInv_setReg_iff s r v).mpr h
  | cell a =>
    obtain ⟨hlow, hhigh⟩ := writesTo_cell_bounds s d a hp
    have ⟨hwf, _⟩ := h
    exact machineInv_setCell s a _ hhigh (regions_setCell_data s a v hwf hlow) h

/-- After the destination, a commit writes only `OF` and `pc`. -/
theorem machineInv_commit_dest (s : State) (p : Place) (v : Word) (ovf : Bool)
    (h : MachineInv (s.writePlace p v)) : MachineInv (commit s { dest := some (p, v), ovf := ovf }) := by
  rw [commit_dest_flag, machineInv_advance_iff]
  cases ovf with
  | false => exact h
  | true => exact (machineInv_setReg_iff _ .of 1).mpr h

theorem machineInv_record (s : State) (a : Nat) (name : Text) (ha : a < s.cfg.memSize) (h : MachineInv s) :
    MachineInv { s with labels := s.labels.record a name } := by
  obtain ⟨hwf, hbelow, hrising, hlabels, hrest⟩ := h
  exact ⟨hwf, hbelow, labels_record_rising _ _ _ hrising, labels_record_below _ _ _ _ hlabels ha, hrest⟩

/-- Landing on an instruction cell records a label below `MEM_SIZE` and, in REWRITE, leaves program text where
program text was (R213, R214). -/
theorem machineInv_land (s : State) (a : Nat) (name : Text) (ha : a < s.instSize) (h : MachineInv s) :
    MachineInv (s.land a name) := by
  have ⟨hwf, _, _, _, hsize, _⟩ := h
  have hmem : a < s.cfg.memSize := lt_of_lt_of_le ha hsize
  have hrecorded := machineInv_record s a name hmem h
  cases hmode : s.cfg.labelMode with
  | static =>
    rw [land_static s a name hmode, machineInv_setReg_iff]
    exact hrecorded
  | rewrite =>
    rw [land_rewrite s a name hmode, machineInv_setReg_iff]
    exact machineInv_setCell _ a _ hmem (regions_setCell_instr _ a _ hwf ha) hrecorded

/-- Every instruction keeps the invariant. -/
theorem machineInv_of_nextShape (i : Instr) (s t : State) (hs : MachineInv s) (h : NextShape i s t) :
    MachineInv t := by
  cases h with
  | fault f hf => exact machineInv_takeFault s f hf hs
  | advance hi => exact (machineInv_advance_iff s).mpr hs
  | store d p v hd hp => exact machineInv_commit_dest s p v _ (machineInv_writePlace s d p v hp hs)
  | storeExact d src p e hd hp hi he =>
    exact machineInv_commit_dest s p _ _ (machineInv_writePlace s d p _ hp hs)
  | compare d src a b hi ha hb =>
    exact machineInv_commit_dest s (.reg .cr) _ _ ((machineInv_setReg_iff s .cr _).mpr hs)
  | land l a hi ha ht => exact machineInv_land s a _ (firstLabel_lt s _ a ha) hs

/-! ### The obligations -/

/-- Settles O23, from the two ways a step has a next state: a fault taken before the instruction runs, and the
instruction, whose shapes all keep the invariant. -/
theorem stepKeepsInv : Obligations.StepKeepsInv := by
  unfold Obligations.StepKeepsInv
  intro s t hs hstep
  obtain ⟨-, ⟨f, hf, rfl⟩ | ⟨i, u, -, -, -, hexec⟩⟩ := step_eq_next s t hstep
  · exact machineInv_takeFault s f hf hs
  · exact machineInv_of_nextShape i s t hs (exec_shape i s t hexec)

/-- Nothing is listed in a constructed machine, and no program can run in it. -/
theorem machineInv_construct (cfg : Config) : MachineInv (State.construct cfg) := by
  refine ⟨rfl, rfl, rfl, rfl, Nat.zero_le _, by simp, fun _ hpos => ?_⟩
  exact absurd hpos (by simp)

/-- Settles O24: reset is construction at the parameters of R8. -/
theorem constructionHasInv : Obligations.ConstructionHasInv := by
  unfold Obligations.ConstructionHasInv
  exact ⟨machineInv_construct, machineInv_construct Config.standard⟩

end Sys2Proof.Machine
end

section
/-! The step with a negative program counter (R29, R101). -/

namespace Sys2Proof.Machine

/-- A fetch with a negative `pc` raises PC_RANGE, whatever memory holds (R101). -/
theorem fetch_of_pc_neg (s : State) (h : (s.reg .pc).toInt < 0) : fetch s = .error (.raise .pcRange) := by
  simp [fetch, h]

theorem cycle_of_fetch_error (s : State) (e : Stop) (h : fetch s = .error e) :
    cycle s = complete s (.error e) := by
  simp [cycle, h]

/-- Settles O19: a negative `pc` is below every `instSize`, so the step is enabled and its fetch raises. -/
theorem negativePcFaults : Obligations.NegativePcFaults := by
  unfold Obligations.NegativePcFaults
  intro s hfault hpc
  have henabled : loopEnd s = none := (loopEnd_eq_none_iff s).mpr ⟨hfault, by omega⟩
  rw [Faults, step_of_enabled s henabled, cycle_of_fetch_error s _ (fetch_of_pc_neg s hpc), complete_raise,
    takeFault_of_no_fault s _ hfault]

end Sys2Proof.Machine
end

section
/-! What no instruction does: the state no instruction writes, the writers of instruction cells, of `CR` and of
`OF`, and how `pc` moves. Each is read off the shapes of a next state. -/

namespace Sys2Proof.Machine

/-! ### State that no instruction writes -/

/-- A next state is an outcome committed or a fault taken (R103, R105). -/
theorem committed_or_faulted (i : Instr) (s t : State) (h : NextShape i s t) :
    (∃ q, t = commit s q) ∨ ∃ f, t = takeFault s f := by
  cases h with
  | fault f hf => exact .inr ⟨f, rfl⟩
  | advance hi => exact .inl ⟨{}, rfl⟩
  | store d p v hd hp => exact .inl ⟨_, rfl⟩
  | storeExact d src p e hd hp hi he => exact .inl ⟨_, rfl⟩
  | compare d src a b hi ha hb => exact .inl ⟨_, rfl⟩
  | land l a hi ha ht => exact .inl ⟨{ control := .jump a (labelName l) }, rfl⟩

/-- Settles O28: a commit keeps the whole frame, and a fault taken under a fault keeps the first cause. -/
theorem unwritableState : Obligations.UnwritableState := by
  unfold Obligations.UnwritableState
  intro i s t h
  obtain ⟨q, rfl⟩ | ⟨f, rfl⟩ := committed_or_faulted i s t (exec_shape i s t h)
  · obtain ⟨hcfg, hsize, hfault, hcause, hctr⟩ := sameFrame_commit s q
    exact ⟨hsize, hcfg, hctr, fun hset => ⟨hfault.trans hset, hcause⟩⟩
  · exact ⟨rfl, rfl, rfl, fun hset => ⟨rfl, by simp [hset]⟩⟩

/-! ### Instruction cells -/

/-- An instruction cell keeps its text, unless the instruction is a jump that landed (R35, R65). -/
theorem code_unchanged_or_landed (i : Instr) (s t : State) (a : Nat) (h : NextShape i s t)
    (ha : a < s.instSize) :
    t.mem.read a = s.mem.read a ∨
      ∃ b name, isJump i ∧ targetOk s (cellText (s.mem.read b)) = true ∧ t = s.land b name := by
  cases h with
  | fault f hf => exact .inl rfl
  | advance hi => exact .inl rfl
  | store d p v hd hp =>
    exact .inl (by rw [commit_dest_mem, read_writePlace_of_lt_instSize s d p v a hp ha])
  | storeExact d src p e hd hp hi he =>
    exact .inl (by rw [exactResult, commit_dest_mem, read_writePlace_of_lt_instSize s d p _ a hp ha])
  | compare d src x y hi hx hy => exact .inl rfl
  | land l b hi hb ht => exact .inr ⟨b, labelName l, isJump_of_eq i l hi, ht, rfl⟩

/-- Settles O29: only a landed jump could change the cell, and in STATIC it changes none. -/
theorem staticCodeUnchanged : Obligations.StaticCodeUnchanged := by
  unfold Obligations.StaticCodeUnchanged
  intro i s t a hmode h ha
  obtain hsame | ⟨b, name, -, -, rfl⟩ := code_unchanged_or_landed i s t a (exec_shape i s t h) ha
  · exact hsame
  · rw [land_mem_static s b name hmode]

/-- Settles O30: only a landed jump changes an instruction cell, in REWRITE it changes its target alone, and that
cell is stripped. -/
theorem rewriteStripsTargetOnly : Obligations.RewriteStripsTargetOnly := by
  unfold Obligations.RewriteStripsTargetOnly
  intro i s t a hmode h ha hne
  obtain hsame | ⟨b, name, hjump, hok, rfl⟩ := code_unchanged_or_landed i s t a (exec_shape i s t h) ha
  · exact absurd hsame hne
  · have hab : a = b := by
      by_contra hab
      exact hne (by rw [land_mem_rewrite s b name hmode, memory_read_write_other _ _ _ _ hab])
    subst hab
    exact ⟨hjump, land_pc s a name, land_strips s a name hmode hok⟩

/-! ### Registers -/

/-- Who can have written a register other than `PC`: the instruction that names it as its destination, CMP for
`CR` (R24), and an ADD, SUB or MUL that overflowed for `OF` (R25). -/
theorem register_writers (i : Instr) (s t : State) (r : Reg) (h : NextShape i s t) (hpc : r ≠ .pc)
    (hne : t.reg r ≠ s.reg r) :
    namesDest s i r ∨
      (r = .cr ∧ ∃ d src a b, i = .cmp d src ∧ t.reg .cr = compareValue a b) ∨
      (r = .of ∧ t.reg .of = 1 ∧ ∃ e, ExactResultOf s i e ∧ Overflowing s e) := by
  cases h with
  | fault f hf => exact absurd (reg_takeFault s f r) hne
  | advance hi => exact absurd (reg_advance_other s r hpc) hne
  | store d p v hd hp =>
    refine .inl (namesDest_of_mem_placeRegs s i d p r hd hp ?_)
    by_contra hr
    exact hne (reg_commit_dest_other s v hpc hr (by simp))
  | storeExact d src p e hd hp hi he =>
    by_cases hr : r ∈ placeRegs p
    · exact .inl (namesDest_of_mem_placeRegs s i d p r hd hp hr)
    · right; right
      obtain ⟨hovf, rfl⟩ : overflows s.cfg.ovfMode e = true ∧ r = .of := by
        by_contra hno
        exact hne (reg_commit_dest_other s _ hpc hr (fun hovf hof => hno ⟨hovf, hof⟩))
      refine ⟨rfl, ?_, e, he, (overflows_iff s e).mp hovf⟩
      rw [exactResult, hovf, reg_of_commit_overflow]
  | compare d src a b hi ha hb =>
    have hcr : r = .cr := by
      by_contra hr
      exact hne (reg_commit_dest_other s _ hpc (by simpa [placeRegs] using hr) (by simp))
    exact .inr (.inl ⟨hcr, d, src, a, b, hi, rfl⟩)
  | land l a hi ha ht => exact absurd (reg_land_other s a _ r hpc) hne

/-- Settles O32: of the writers of a register, those of `CR`. -/
theorem comparisonWriters : Obligations.ComparisonWriters := by
  unfold Obligations.ComparisonWriters
  intro i s t h hne
  obtain hd | ⟨-, d, src, a, b, hi, hcr⟩ | ⟨hof, -⟩ :=
    register_writers i s t .cr (exec_shape i s t h) (by decide) hne
  · exact .inl hd
  · exact .inr ⟨d, src, hi, hcr ▸ compareValue_toInt a b⟩
  · cases hof

/-- Settles O33: of the writers of a register, those of `OF`. -/
theorem overflowWriters : Obligations.OverflowWriters := by
  unfold Obligations.OverflowWriters
  intro i s t h hne
  obtain hd | ⟨hcr, -⟩ | ⟨-, hone, hexact⟩ :=
    register_writers i s t .of (exec_shape i s t h) (by decide) hne
  · exact .inl hd
  · cases hcr
  · exact .inr ⟨hone, hexact⟩

/-- A destination write advances `pc`, unless `PC` is the destination itself (R26, R28). -/
theorem pc_advanced_or_named (i : Instr) (s : State) (d : Token) (p : Place) (v : Word) (ovf : Bool)
    (hd : destToken i = some d) (hp : writesTo s d p = true) :
    PcAdvanced s (commit s { dest := some (p, v), ovf := ovf }) ∨ namesDest s i .pc := by
  by_cases hr : Reg.pc ∈ placeRegs p
  · exact .inr (namesDest_of_mem_placeRegs s i d p .pc hd hp hr)
  · exact .inl (pcAdvanced_commit_dest s v hr)

/-- Settles O34, shape by shape: a fault keeps `pc`, a landed jump sets it, and every other shape advances it or
names it. -/
theorem programCounterMoves : Obligations.ProgramCounterMoves := by
  unfold Obligations.ProgramCounterMoves
  intro i s t hfault h
  have hcommit : ∀ q, (commit s q).fault = false := fun q => (sameFrame_fault (sameFrame_commit s q)).trans hfault
  cases exec_shape i s t h with
  | fault f hf => exact .inl ⟨takeFault_fault s f, reg_takeFault s f .pc⟩
  | advance hi => exact .inr ⟨hfault, .inl (advance_pc s)⟩
  | store d p v hd hp =>
    refine .inr ⟨hcommit _, ?_⟩
    exact or_assoc.mp (.inl (pc_advanced_or_named i s d p v _ hd hp))
  | storeExact d src p e hd hp hi he =>
    refine .inr ⟨hcommit _, ?_⟩
    exact or_assoc.mp (.inl (pc_advanced_or_named i s d p _ _ hd hp))
  | compare d src a b hi ha hb =>
    exact .inr ⟨hcommit _, .inl (pcAdvanced_commit_dest s _ (by simp [placeRegs]))⟩
  | land l a hi ha ht =>
    exact .inr ⟨(land_fault s a _).trans hfault,
      .inr (.inr ⟨isJump_of_eq i l hi, a, firstLabel_lt s _ a ha, land_pc s a _⟩)⟩

end Sys2Proof.Machine
end

section
/-! Registers an instruction does not name (R23): its outcome is computed without them and does not write them, so
that running it commutes with writing one of them. -/

namespace Sys2Proof.Machine

/-- `g` applied to the next state, where there is one. -/
def mapNext (g : State → State) (o : Host.Outcome State Fault Refusal) : Host.Outcome State Fault Refusal :=
  match o with
  | .next t => .next (g t)
  | .fault why => .fault why
  | .refused why => .refused why

/-- `r` is neither a flag register nor the program counter, which instructions use without naming them. -/
def IsGeneral (r : Reg) : Prop :=
  r ≠ .cr ∧ r ≠ .of ∧ r ≠ .pc

theorem isGeneral_of_mem {r : Reg} (h : r ∈ [Reg.ayb, .ben, .gim, .da]) : IsGeneral r := by
  simp only [List.mem_cons, List.not_mem_nil, or_false] at h
  unfold IsGeneral
  rcases h with rfl | rfl | rfl | rfl <;> decide

/-! ### Committing around the register, stage by stage -/

section
variable (s : State) {r : Reg} (v : Word)

theorem writeDest_setReg (dest : Option (Place × Word)) (h : ∀ w, dest ≠ some (.reg r, w)) :
    writeDest (s.setReg r v) dest = (writeDest s dest).setReg r v := by
  match dest, h with
  | none, _ => rfl
  | some (.cell a, w), _ => rfl
  | some (.reg q, w), h =>
    have hrq : r ≠ q := fun hrq => h w (by rw [hrq])
    exact setReg_setReg_comm s r q v w hrq

theorem writeFlag_setReg (ovf : Bool) (h : r ≠ .of) :
    writeFlag (s.setReg r v) ovf = (writeFlag s ovf).setReg r v := by
  cases ovf with
  | false => rfl
  | true => exact setReg_setReg_comm s r .of v 1 h

theorem advance_setReg (h : r ≠ .pc) : (s.setReg r v).advance = s.advance.setReg r v := by
  unfold State.advance
  rw [reg_setReg_other s r .pc v h.symm, setReg_setReg_comm s r .pc v _ h]

theorem land_setReg (a : Nat) (name : Text) (h : r ≠ .pc) :
    (s.setReg r v).land a name = (s.land a name).setReg r v := by
  cases hmode : s.cfg.labelMode with
  | static =>
    rw [land_static s a name hmode, land_static (s.setReg r v) a name hmode,
      setReg_setReg_comm _ .pc r _ v h.symm]
    rfl
  | rewrite =>
    rw [land_rewrite s a name hmode, land_rewrite (s.setReg r v) a name hmode,
      setReg_setReg_comm _ .pc r _ v h.symm]
    rfl

theorem writeControl_setReg (control : Control) (h : r ≠ .pc) :
    writeControl (s.setReg r v) control = (writeControl s control).setReg r v := by
  cases control with
  | next => exact advance_setReg s v h
  | jump a name => exact land_setReg s v a name h

/-- Committing an outcome commutes with writing a general register that is not its destination. -/
theorem commit_setReg (q : Pending) (hr : IsGeneral r) (hq : ∀ w, q.dest ≠ some (.reg r, w)) :
    commit (s.setReg r v) q = (commit s q).setReg r v := by
  obtain ⟨-, hof, hpc⟩ := hr
  rw [commit_eq_stages, commit_eq_stages, writeDest_setReg s v q.dest hq, writeFlag_setReg _ v q.ovf hof,
    writeControl_setReg _ v q.control hpc]

end

/-! ### Outcomes that neither read nor write the register -/

/-- The outcome that `x` computes is the same with `v` in `r`, and `r` is not its destination. -/
def InertIn (s : State) (r : Reg) (v : Word) (x : State → Except Stop Pending) : Prop :=
  x (s.setReg r v) = x s ∧ ∀ q, x s = .ok q → ∀ w, q.dest ≠ some (.reg r, w)

/-- `run` ends an instruction with an outcome that neither reads nor writes `r`. -/
def RunsInert (s : State) (r : Reg) (v : Word) (run : State → Host.Outcome State Fault Refusal) : Prop :=
  ∃ x, (∀ u, run u = complete u (x u)) ∧ InertIn s r v x

/-- Such an instruction does the same with `v` in `r`, and leaves `v` there. -/
theorem run_setReg {s : State} {r : Reg} {v : Word} {run : State → Host.Outcome State Fault Refusal}
    (hr : IsGeneral r) (h : RunsInert s r v run) :
    run (s.setReg r v) = mapNext (·.setReg r v) (run s) := by
  obtain ⟨x, hrun, hread, hwrite⟩ := h
  rw [hrun, hrun, hread]
  cases hx : x s with
  | error e => cases e <;> rfl
  | ok q => exact congrArg Host.Outcome.next (commit_setReg s v q hr (hwrite q hx))

section
variable {s : State} {r : Reg} (v : Word) {d src : Token}

/-! ### Operands -/

/-- A token that does not name the register resolves to another place. -/
theorem resolveDest_ne_reg {p : Place} (hd : regNamed s.cfg.regNames d ≠ some r)
    (hp : resolveDest s d = .ok p) : p ≠ .reg r := by
  rintro rfl
  rw [resolveDest_eq_ok_iff, writesTo_reg_iff, classify_eq_reg_iff] at hp
  exact hd hp

/-- Resolving a destination reads no register (R110). -/
theorem resolveDest_setReg : resolveDest (s.setReg r v) d = resolveDest s d := rfl

theorem readPlace_setReg {p : Place} (hp : p ≠ .reg r) : readPlace (s.setReg r v) p = readPlace s p := by
  cases p with
  | cell a => rfl
  | reg q => exact congrArg Except.ok (reg_setReg_other s r q v (fun hqr => hp (hqr ▸ rfl)))

/-- Resolving a source reads no register but the one it names (R112). -/
theorem resolveSrc_setReg (hs : regNamed s.cfg.regNames src ≠ some r) :
    resolveSrc (s.setReg r v) src = resolveSrc s src := by
  unfold resolveSrc
  rw [show classifyOrRaise (s.setReg r v) src = classifyOrRaise s src from rfl]
  cases hc : classify s.cfg.regNames src with
  | none => rw [classifyOrRaise_of_none s src hc]
  | some o =>
    rw [classifyOrRaise_of_some s src o hc]
    cases o with
    | imm w => rfl
    | mem a => rfl
    | reg q =>
      have hqr : q ≠ r := fun hqr => hs (hqr ▸ (classify_eq_reg_iff _ _ _).mp hc)
      exact congrArg Except.ok (reg_setReg_other s r q v hqr)

theorem unnamed_pair (h : ∀ tok ∈ [d, src], regNamed s.cfg.regNames tok ≠ some r) :
    regNamed s.cfg.regNames d ≠ some r ∧ regNamed s.cfg.regNames src ≠ some r := by
  simpa using h

/-! ### The instructions -/

/-- A two-operand outcome is inert where its destination is the place of operand 1 or another register. -/
theorem withOperands_inertIn (f : State → Place → Word → Word → Pending)
    (hd : regNamed s.cfg.regNames d ≠ some r) (hs : regNamed s.cfg.regNames src ≠ some r)
    (hread : f (s.setReg r v) = f s) (hf : ∀ p a b w, p ≠ .reg r → (f s p a b).dest ≠ some (.reg r, w)) :
    InertIn s r v (fun u => withOperands u d src (f u)) := by
  constructor
  · simp only [hread]
    unfold withOperands
    rw [resolveDest_setReg, resolveSrc_setReg v hs]
    cases hp : resolveDest s d with
    | error e => rfl
    | ok p => simp only [readPlace_setReg v (resolveDest_ne_reg hd hp)]
  · intro q hq w
    obtain ⟨p, a, b, hp, -, -, rfl⟩ := withOperands_eq_ok s d src _ q hq
    exact hf p a b w (resolveDest_ne_reg hd ((resolveDest_eq_ok_iff s d p).mpr hp))

theorem some_place_ne {p : Place} {w x : Word} (hp : p ≠ .reg r) : some (p, x) ≠ some (.reg r, w) := by
  simp [hp]

theorem execMov_inert (hd : regNamed s.cfg.regNames d ≠ some r) (hs : regNamed s.cfg.regNames src ≠ some r) :
    RunsInert s r v (execMov d src) := by
  refine ⟨_, fun u => rfl, ?_, ?_⟩
  · simp only [resolveDest_setReg, resolveSrc_setReg v hs]
  · intro q hq w
    beta_reduce at hq
    split at hq
    · cases hq
    · next p hp =>
      split at hq
      · cases hq
      · cases hq
        exact some_place_ne (resolveDest_ne_reg hd hp)

theorem execNot_inert (hd : regNamed s.cfg.regNames d ≠ some r) : RunsInert s r v (execNot d) := by
  refine ⟨_, fun u => rfl, ?_, ?_⟩
  · simp only [resolveDest_setReg]
    cases hp : resolveDest s d with
    | error e => rfl
    | ok p => simp only [readPlace_setReg v (resolveDest_ne_reg hd hp)]
  · intro q hq w
    beta_reduce at hq
    split at hq
    · cases hq
    · next p hp =>
      split at hq
      · cases hq
      · cases hq
        exact some_place_ne (resolveDest_ne_reg hd hp)

theorem nonRegisterArith_setReg (isDiv : Bool) (hs : regNamed s.cfg.regNames src ≠ some r) :
    nonRegisterArith isDiv (s.setReg r v) d src = nonRegisterArith isDiv s d src := by
  unfold nonRegisterArith
  rw [resolveSrc_setReg v hs]
  rfl

theorem divideReg_setReg {q : Reg} (b : Word) (hq : q ≠ r) :
    divideReg (s.setReg r v) q b = divideReg s q b := by
  unfold divideReg
  rw [reg_setReg_other s r q v hq]

theorem divideReg_dest {q : Reg} {b : Word} {out : Pending} (h : divideReg s q b = .ok out) :
    ∃ w, out.dest = some (.reg q, w) := by
  unfold divideReg at h
  split at h
  · cases h
  · split at h
    · cases h
    · cases h
      exact ⟨_, rfl⟩

theorem execMul_inert (hd : regNamed s.cfg.regNames d ≠ some r) (hs : regNamed s.cfg.regNames src ≠ some r) :
    RunsInert s r v (execMul d src) := by
  refine ⟨_, fun u => rfl, ?_, ?_⟩
  · simp only [setReg_cfg, nonRegisterArith_setReg v false hs, resolveSrc_setReg v hs]
    split
    · rfl
    · next k hk =>
      have hkr : k ≠ r := fun hkr => hd (hkr ▸ hk)
      rw [reg_setReg_other s r k v hkr]
  · intro q hq w
    beta_reduce at hq
    split at hq
    · rw [nonRegisterArith_eq_ok false s d src q hq]
      exact (Option.some_ne_none _).symm
    · next k hk =>
      split at hq
      · cases hq
      · cases hq
        exact some_place_ne (fun hkr => hd (Place.reg.inj hkr ▸ hk))

theorem execDiv_inert (hd : regNamed s.cfg.regNames d ≠ some r) (hs : regNamed s.cfg.regNames src ≠ some r) :
    RunsInert s r v (execDiv d src) := by
  refine ⟨_, fun u => rfl, ?_, ?_⟩
  · simp only [setReg_cfg, nonRegisterArith_setReg v true hs, resolveSrc_setReg v hs]
    split
    · rfl
    · next k hk =>
      have hkr : k ≠ r := fun hkr => hd (hkr ▸ hk)
      simp only [divideReg_setReg v _ hkr]
  · intro q hq w
    beta_reduce at hq
    split at hq
    · rw [nonRegisterArith_eq_ok true s d src q hq]
      exact (Option.some_ne_none _).symm
    · next k hk =>
      split at hq
      · cases hq
      · obtain ⟨x, hx⟩ := divideReg_dest hq
        rw [hx]
        exact some_place_ne (fun hkr => hd (Place.reg.inj hkr ▸ hk))

/-- Label lookup and the target check read no register, so a jump reads only what its condition reads (R211). -/
theorem jump_inertIn (l : Token) (taken : State → Bool) (h : taken (s.setReg r v) = taken s) :
    InertIn s r v (fun u => jump u l (taken u)) := by
  constructor
  · show jump s l (taken (s.setReg r v)) = jump s l (taken s)
    rw [h]
  · intro q hq w
    have hdest : q.dest = none := by
      beta_reduce at hq
      unfold jump takeJump at hq
      repeat' split at hq
      all_goals cases hq
      all_goals rfl
    rw [hdest]
    exact (Option.some_ne_none _).symm

end

/-- An instruction neither reads nor writes a general register it does not name (R23). -/
theorem exec_runsInert (i : Instr) (s : State) (r : Reg) (v : Word) (hr : IsGeneral r)
    (hi : ∀ tok ∈ operandTokens i, regNamed s.cfg.regNames tok ≠ some r) : RunsInert s r v (exec i) := by
  obtain ⟨hcr, -, -⟩ := hr
  have hcond : (s.setReg r v).reg .cr = s.reg .cr := reg_setReg_other s r .cr v hcr.symm
  cases i with
  | mov d src =>
    obtain ⟨hd, hs⟩ := unnamed_pair hi
    exact execMov_inert v hd hs
  | add d src =>
    obtain ⟨hd, hs⟩ := unnamed_pair hi
    exact ⟨_, fun u => rfl, withOperands_inertIn v _ hd hs rfl (fun _ _ _ _ => some_place_ne)⟩
  | sub d src =>
    obtain ⟨hd, hs⟩ := unnamed_pair hi
    exact ⟨_, fun u => rfl, withOperands_inertIn v _ hd hs rfl (fun _ _ _ _ => some_place_ne)⟩
  | mul d src =>
    obtain ⟨hd, hs⟩ := unnamed_pair hi
    exact execMul_inert v hd hs
  | div d src =>
    obtain ⟨hd, hs⟩ := unnamed_pair hi
    exact execDiv_inert v hd hs
  | and d src =>
    obtain ⟨hd, hs⟩ := unnamed_pair hi
    exact ⟨_, fun u => rfl, withOperands_inertIn v _ hd hs rfl (fun _ _ _ _ => some_place_ne)⟩
  | or d src =>
    obtain ⟨hd, hs⟩ := unnamed_pair hi
    exact ⟨_, fun u => rfl, withOperands_inertIn v _ hd hs rfl (fun _ _ _ _ => some_place_ne)⟩
  | not d => exact execNot_inert v (hi d (by simp [operandTokens]))
  | cmp d src =>
    obtain ⟨hd, hs⟩ := unnamed_pair hi
    exact ⟨_, fun u => rfl, withOperands_inertIn v _ hd hs rfl
      (fun _ _ _ _ _ => some_place_ne (fun h => hcr (Place.reg.inj h).symm))⟩
  | jmp l => exact ⟨_, fun u => rfl, jump_inertIn v l (fun _ => true) rfl⟩
  | jg l => exact ⟨_, fun u => rfl, jump_inertIn v l isGreater (by rw [isGreater, isGreater, hcond])⟩
  | jl l => exact ⟨_, fun u => rfl, jump_inertIn v l isLess (by rw [isLess, isLess, hcond])⟩
  | je l => exact ⟨_, fun u => rfl, jump_inertIn v l isEqual (by rw [isEqual, isEqual, hcond])⟩

/-! ### The obligation -/

/-- Settles O31: an instruction's outcome neither reads nor writes the register, and committing such an outcome
commutes with writing it. -/
theorem unnamedRegistersInert : Obligations.UnnamedRegistersInert := by
  unfold Obligations.UnnamedRegistersInert
  intro i s r v hmem hi
  have hr := isGeneral_of_mem hmem
  rw [run_setReg hr (exec_runsInert i s r v hr hi)]
  cases exec i s <;> rfl

end Sys2Proof.Machine
end

section
/-! MOV stores its source, and NOT of `PC` negates it. -/

namespace Sys2Proof.Machine

/-- MOV on resolved operands commits the source to the destination (R140). -/
theorem execMov_of_resolved (s : State) (d src : Token) (p : Place) (v : Word)
    (hp : writesTo s d p = true) (hv : readsAs s src v = true) :
    exec (.mov d src) s = .next (commit s { dest := some (p, v) }) := by
  show execMov d src s = _
  unfold execMov
  rw [(resolveDest_eq_ok_iff s d p).mpr hp, (resolveSrc_eq_ok_iff s src v).mpr hv]
  rfl

/-- Settles O35: what the commit of a destination write leaves is what MOV leaves. -/
theorem movStores : Obligations.MovStores := by
  unfold Obligations.MovStores
  intro s d src p v hm hp hv
  exact ⟨_, execMov_of_resolved s d src p v hp hv, commit_dest_stores s p v hm⟩

/-- NOT on a register commits its complement to it (R182). -/
theorem execNot_of_reg (s : State) (d : Token) (r : Reg) (hd : classify s.cfg.regNames d = some (.reg r)) :
    exec (.not d) s = .next (commit s { dest := some (.reg r, ~~~s.reg r) }) := by
  show execNot d s = _
  unfold execNot
  rw [(resolveDest_eq_ok_iff s d (.reg r)).mpr ((writesTo_reg_iff s d r).mpr hd)]
  rfl

/-- The successor of the complement is the negative, wrapped alike (R10). -/
theorem wrap32_not_succ (a : Word) : wrap32 ((~~~a).toInt + 1) = wrap32 (-a.toInt) := by
  unfold wrap32
  rw [BitVec.ofInt_add, BitVec.ofInt_neg, BitVec.ofInt_toInt, BitVec.ofInt_toInt, BitVec.neg_eq_not_add]
  rfl

/-- Settles O47: the increment follows the write of the complement to `PC` (R28, R104). -/
theorem notPcNegates : Obligations.NotPcNegates := by
  unfold Obligations.NotPcNegates
  intro s d hd
  refine ⟨_, execNot_of_reg s d .pc hd, ?_⟩
  rw [commit_dest, advance_pc, writePlace_reg, reg_setReg_same, wrap32_not_succ]

end Sys2Proof.Machine
end

section
/-! Operand faults (R53, R110, R112, R114, R154, R245): what each operand form makes of a failed check, and that the
first operand whose resolution fails decides how the instruction ends. -/

namespace Sys2Proof.Machine

/-! ### Instructions over the outcome they end with -/

/-- The F2 instructions are those that need a register or cell as operand 1, and MUL and DIV (R82). -/
theorem shaped_or_mul_or_div {op : Token → Token → Instr} (h : op ∈ dualOperand) :
    op ∈ shapedDest ∨ op = .mul ∨ op = .div := by
  simp only [dualOperand, shapedDest, List.mem_cons, List.not_mem_nil, or_false] at h ⊢
  tauto

/-- A fault raised while none is recorded sets exactly `FAULT` and `FCAUSE` (R105, R243). -/
theorem faults_of_eq_raise {s : State} {f : FaultCause} {o : Host.Outcome State Fault Refusal}
    (hfault : s.fault = false) (h : o = complete s (.error (.raise f))) : Faults o s f := by
  rw [Faults, h, complete_raise, takeFault_of_no_fault s f hfault]

section
variable {s : State} {d src : Token}

/-! ### Operands by class -/

theorem resolveDest_of_none (h : classify s.cfg.regNames d = none) :
    resolveDest s d = .error (.raise .operandSyntax) := by
  rw [resolveDest, classifyOrRaise_of_none s d h]

theorem resolveDest_of_reg {r : Reg} (h : classify s.cfg.regNames d = some (.reg r)) :
    resolveDest s d = .ok (.reg r) := by
  rw [resolveDest, classifyOrRaise_of_some s d _ h]

theorem resolveDest_of_imm {v : Word} (h : classify s.cfg.regNames d = some (.imm v)) :
    resolveDest s d = .error (.raise .operandShape) := by
  rw [resolveDest, classifyOrRaise_of_some s d _ h]

theorem resolveDest_of_mem {a : Int} (h : classify s.cfg.regNames d = some (.mem a)) :
    resolveDest s d = (checkAddr s a).map Place.cell := by
  rw [resolveDest, classifyOrRaise_of_some s d _ h]

theorem resolveSrc_of_mem {a : Int} (h : classify s.cfg.regNames src = some (.mem a)) :
    resolveSrc s src = (checkAddr s a).bind (memRead s) := by
  rw [resolveSrc, classifyOrRaise_of_some s src _ h]
  dsimp only
  cases checkAddr s a with
  | error e => rfl
  | ok c => rfl

theorem regNamed_eq_none_of_classify (h : ∀ r, classify s.cfg.regNames d ≠ some (.reg r)) :
    regNamed s.cfg.regNames d = none := by
  rw [Option.eq_none_iff_forall_ne_some]
  exact fun r hr => h r ((classify_eq_reg_iff _ _ r).mpr hr)

/-- A written operand 1 is a register, or one that MUL and DIV leave alone (R154). -/
theorem regNamed_or_isIdleDest {p : Place} (hp : writesTo s d p = true) :
    (∃ r, regNamed s.cfg.regNames d = some r) ∨ isIdleDest s d = true := by
  unfold writesTo at hp
  unfold isIdleDest
  split at hp
  · next r hc => exact .inl ⟨r, (classify_eq_reg_iff _ _ r).mp hc⟩
  · next a hc =>
    simp only [Bool.and_eq_true] at hp
    obtain ⟨hin, -⟩ := hp
    exact .inr (by simp [hc, hin])
  · cases hp
  · cases hp

/-! ### MUL and DIV by the class of operand 1 -/

theorem execMul_of_not_reg (h : regNamed s.cfg.regNames d = none) :
    exec (.mul d src) s = complete s (nonRegisterArith false s d src) := by
  show execMul d src s = _
  rw [execMul, h]

theorem execDiv_of_not_reg (h : regNamed s.cfg.regNames d = none) :
    exec (.div d src) s = complete s (nonRegisterArith true s d src) := by
  show execDiv d src s = _
  rw [execDiv, h]

/-- Where operand 1 is no register, a fault of its resolution other than its shape is raised by MUL and DIV too
(R154). -/
theorem nonRegisterArith_of_dest_error {e : Stop} (isDiv : Bool) (he : e ≠ .raise .operandShape)
    (h : resolveDest s d = .error e) :
    regNamed s.cfg.regNames d = none ∧ nonRegisterArith isDiv s d src = .error e := by
  unfold nonRegisterArith
  cases hc : classify s.cfg.regNames d with
  | none =>
    rw [resolveDest_of_none hc] at h
    rw [classifyOrRaise_of_none s d hc]
    exact ⟨regNamed_eq_none_of_classify (by simp [hc]), congrArg Except.error (Except.error.inj h)⟩
  | some o =>
    rw [classifyOrRaise_of_some s d o hc]
    cases o with
    | reg r => rw [resolveDest_of_reg hc] at h; cases h
    | imm v => rw [resolveDest_of_imm hc] at h; cases h; exact absurd rfl he
    | mem a =>
      rw [resolveDest_of_mem hc] at h
      refine ⟨regNamed_eq_none_of_classify (by simp [hc]), ?_⟩
      cases hk : checkAddr s a with
      | ok c => rw [hk] at h; cases h
      | error e' => rw [hk] at h; cases h; simp [checkUnused, hk]

/-- On an operand 1 they do not write, MUL and DIV still resolve operand 2 (R154). -/
theorem nonRegisterArith_of_src_error {e : Stop} (isDiv : Bool) (hd : isIdleDest s d = true)
    (h : resolveSrc s src = .error e) :
    regNamed s.cfg.regNames d = none ∧ nonRegisterArith isDiv s d src = .error e := by
  unfold isIdleDest at hd
  unfold nonRegisterArith
  split at hd
  · next a hc =>
    simp only [Bool.and_eq_true, decide_eq_true_eq] at hd
    obtain ⟨hlow, hhigh⟩ := hd
    have hk : checkAddr s a = .ok a.toNat := (checkAddr_eq_ok_iff s a _).mpr ⟨hlow, hhigh, rfl⟩
    refine ⟨regNamed_eq_none_of_classify (by simp [hc]), ?_⟩
    rw [classifyOrRaise_of_some s d _ hc]
    simp [checkUnused, hk, h]
  · next v hc =>
    refine ⟨regNamed_eq_none_of_classify (by simp [hc]), ?_⟩
    rw [classifyOrRaise_of_some s d _ hc]
    simp [checkUnused, h]
  · cases hd
  · cases hd

/-! ### Operand 1 decides first, then operand 2 -/

/-- An F2 instruction that needs a register or cell as operand 1 ends as the resolution of operand 1 does (R110). -/
theorem exec_shaped_of_dest_error {e : Stop} (h : resolveDest s d = .error e) :
    ∀ op ∈ shapedDest, exec (op d src) s = complete s (.error e) := by
  have hmov : exec (.mov d src) s = complete s (.error e) := by
    show execMov d src s = _
    rw [execMov, h]
  have hpair := fun g => congrArg (complete s) (withOperands_of_dest_error s d src g e h)
  simp only [shapedDest, List.forall_mem_cons]
  exact ⟨hmov, hpair _, hpair _, hpair _, hpair _, hpair _, by simp⟩

/-- Every F2 instruction ends as the resolution of operand 1 does, unless only its shape is at fault (R110, R154). -/
theorem exec_dual_of_dest_error {e : Stop} (he : e ≠ .raise .operandShape) (h : resolveDest s d = .error e) :
    ∀ op ∈ dualOperand, exec (op d src) s = complete s (.error e) := by
  intro op hop
  have hidle := fun isDiv => nonRegisterArith_of_dest_error (src := src) isDiv he h
  obtain hshaped | rfl | rfl := shaped_or_mul_or_div hop
  · exact exec_shaped_of_dest_error h op hshaped
  · obtain ⟨hreg, hend⟩ := hidle false
    rw [execMul_of_not_reg hreg, hend]
  · obtain ⟨hreg, hend⟩ := hidle true
    rw [execDiv_of_not_reg hreg, hend]

/-- NOT ends as the resolution of its operand does (R182). -/
theorem execNot_of_dest_error {e : Stop} (h : resolveDest s d = .error e) :
    exec (.not d) s = complete s (.error e) := by
  show execNot d s = _
  rw [execNot, h]

/-- On an operand 1 they do not write, MUL and DIV end as the resolution of operand 2 does (R154). -/
theorem exec_mul_div_of_src_error_of_idle {e : Stop} (hd : isIdleDest s d = true)
    (h : resolveSrc s src = .error e) :
    exec (.mul d src) s = complete s (.error e) ∧ exec (.div d src) s = complete s (.error e) := by
  have hidle := fun isDiv => nonRegisterArith_of_src_error isDiv hd h
  obtain ⟨hreg, hmul⟩ := hidle false
  obtain ⟨-, hdiv⟩ := hidle true
  exact ⟨by rw [execMul_of_not_reg hreg, hmul], by rw [execDiv_of_not_reg hreg, hdiv]⟩

theorem exec_mul_div_of_src_error_of_reg {e : Stop} {r : Reg} (hd : regNamed s.cfg.regNames d = some r)
    (h : resolveSrc s src = .error e) :
    exec (.mul d src) s = complete s (.error e) ∧ exec (.div d src) s = complete s (.error e) := by
  constructor
  · show execMul d src s = _
    simp only [execMul, hd, h]
  · show execDiv d src s = _
    simp only [execDiv, hd, h]

/-- Once operand 1 is resolved and read, every F2 instruction ends as the resolution of operand 2 does (R114). -/
theorem exec_dual_of_src_error {e : Stop} {p : Place} {v : Word} (hp : writesTo s d p = true)
    (hv : readsAs s d v = true) (h : resolveSrc s src = .error e) :
    ∀ op ∈ dualOperand, exec (op d src) s = complete s (.error e) := by
  have hmov : exec (.mov d src) s = complete s (.error e) := by
    show execMov d src s = _
    rw [execMov, (resolveDest_eq_ok_iff s d p).mpr hp, h]
  have hpair := fun g => congrArg (complete s) (withOperands_of_src_error s d src g e p v hp hv h)
  obtain ⟨hmul, hdiv⟩ : exec (.mul d src) s = complete s (.error e) ∧
      exec (.div d src) s = complete s (.error e) := by
    obtain ⟨r, hr⟩ | hidle := regNamed_or_isIdleDest hp
    · exact exec_mul_div_of_src_error_of_reg hr h
    · exact exec_mul_div_of_src_error_of_idle hidle h
  simp only [dualOperand, List.forall_mem_cons]
  exact ⟨hmov, hpair _, hpair _, hmul, hdiv, hpair _, hpair _, hpair _, by simp⟩

end

/-! ### The obligations -/

/-- An operand 1 whose address check fails ends every F2 instruction and NOT (R53, R110). -/
theorem destFaults_of_checkAddr {s : State} {d : Token} {a : Int} {f : FaultCause} (src : Token)
    (hfault : s.fault = false) (hd : classify s.cfg.regNames d = some (.mem a)) (hf : f ≠ .operandShape)
    (hk : checkAddr s a = .error (.raise f)) :
    (∀ op ∈ dualOperand, Faults (exec (op d src) s) s f) ∧ Faults (exec (.not d) s) s f := by
  have hdest : resolveDest s d = .error (.raise f) := by rw [resolveDest_of_mem hd, hk]; rfl
  have hraise : Stop.raise f ≠ .raise .operandShape := fun h => hf (Stop.raise.inj h)
  exact ⟨fun op hop => faults_of_eq_raise hfault (exec_dual_of_dest_error hraise hdest op hop),
    faults_of_eq_raise hfault (execNot_of_dest_error hdest)⟩

/-- Settles O48, from the two ways the address check of operand 1 fails. -/
theorem destAddressFaults : Obligations.DestAddressFaults := by
  unfold Obligations.DestAddressFaults
  intro s d src a hfault hd
  constructor
  · intro hlow
    exact destFaults_of_checkAddr src hfault hd (by decide) (checkAddr_protection s a hlow)
  · intro hlow hhigh
    exact destFaults_of_checkAddr src hfault hd (by decide) (checkAddr_bounds s a hlow hhigh)

/-- Settles O49: the failed address check is how operand 2 resolves, and that decides once operand 1 is resolved. -/
theorem sourceAddressFaults : Obligations.SourceAddressFaults := by
  unfold Obligations.SourceAddressFaults
  intro s d src a f hfault hsrc haddr
  have hk : checkAddr s a = .error (.raise f) := by
    obtain ⟨hlow, rfl⟩ | ⟨hlow, hhigh, rfl⟩ := haddr
    · exact checkAddr_protection s a hlow
    · exact checkAddr_bounds s a hlow hhigh
  have herr : resolveSrc s src = .error (.raise f) := by rw [resolveSrc_of_mem hsrc, hk]; rfl
  constructor
  · intro p v hp hv op hop
    exact faults_of_eq_raise hfault (exec_dual_of_src_error hp hv herr op hop)
  · intro hidle
    obtain ⟨hmul, hdiv⟩ := exec_mul_div_of_src_error_of_idle hidle herr
    exact ⟨faults_of_eq_raise hfault hmul, faults_of_eq_raise hfault hdiv⟩

end Sys2Proof.Machine
end

section
/-! Refusals (R52, R54, R137): in a state whose regions hold what R52 says no instruction and no step is refused, and
every loaded machine is such a state. -/

namespace Sys2Proof.Machine

/-! ### Computations that are never refused -/

/-- The computation answers, or raises a fault of the spec; the model does not refuse it. -/
def Unrefused {α : Type} (x : Except Stop α) : Prop :=
  ∀ why, x ≠ .error (.refuse why)

section
variable {α β : Type}

theorem unrefused_ok (a : α) : Unrefused (.ok a : Except Stop α) := fun _ h => by cases h

theorem unrefused_raise (f : FaultCause) : Unrefused (.error (.raise f) : Except Stop α) :=
  fun _ h => by cases h

/-- What stops a computation that is not refused stops its caller without a refusal. -/
theorem unrefused_of_error {x : Except Stop α} {e : Stop} (hx : Unrefused x) (he : x = .error e) :
    Unrefused (.error e : Except Stop β) :=
  fun why h => hx why (he.trans (congrArg Except.error (Except.error.inj h)))

end

/-- An instruction whose outcome is not refused has a next state (R103, R105). -/
theorem complete_next_of_unrefused (s : State) {x : Except Stop Pending} (h : Unrefused x) :
    ∃ t, complete s x = .next t := by
  match x, h with
  | .ok q, _ => exact ⟨_, complete_ok s q⟩
  | .error (.raise f), _ => exact ⟨_, complete_raise s f⟩
  | .error (.refuse why), h => exact absurd rfl (h why)

/-! ### What reads no cell -/

section
variable (s : State)

theorem checkAddr_unrefused (a : Int) : Unrefused (checkAddr s a) := by
  intro why h
  obtain h | h := checkAddr_error s a _ h <;> cases h

theorem classifyOrRaise_unrefused (tok : Token) : Unrefused (classifyOrRaise s tok) := by
  cases hc : classify s.cfg.regNames tok with
  | none => rw [classifyOrRaise_of_none s tok hc]; exact unrefused_raise _
  | some o => rw [classifyOrRaise_of_some s tok o hc]; exact unrefused_ok _

theorem resolveDest_unrefused (d : Token) : Unrefused (resolveDest s d) := by
  cases hc : classify s.cfg.regNames d with
  | none => rw [resolveDest_of_none hc]; exact unrefused_raise _
  | some o =>
    cases o with
    | reg r => rw [resolveDest_of_reg hc]; exact unrefused_ok _
    | imm v => rw [resolveDest_of_imm hc]; exact unrefused_raise _
    | mem a =>
      rw [resolveDest_of_mem hc]
      cases hk : checkAddr s a with
      | error e => exact unrefused_of_error (checkAddr_unrefused s a) hk
      | ok c => exact unrefused_ok _

theorem checkUnused_unrefused (o : Operand) : Unrefused (checkUnused s o) := by
  cases o with
  | reg r => exact unrefused_ok _
  | imm v => exact unrefused_ok _
  | mem a =>
    unfold checkUnused
    dsimp only
    split
    · next hk => exact unrefused_of_error (checkAddr_unrefused s a) hk
    · exact unrefused_ok _

theorem divideReg_unrefused (r : Reg) (b : Word) : Unrefused (divideReg s r b) := by
  unfold divideReg
  split
  · exact unrefused_raise _
  · split
    · exact unrefused_raise _
    · exact unrefused_ok _

theorem jump_unrefused (l : Token) (taken : Bool) : Unrefused (jump s l taken) := by
  have hfind : Unrefused (findLabel s (labelName l)) := by
    unfold findLabel
    split
    · exact unrefused_ok _
    · exact unrefused_raise _
  unfold jump
  split
  · next hl => exact unrefused_of_error hfind hl
  · split
    · unfold takeJump
      split
      · exact unrefused_ok _
      · exact unrefused_raise _
    · exact unrefused_ok _

/-! ### What reads a cell, in a state with the two regions -/

variable {s} (h : Regions s)
include h

/-- A cell of the data region reads as data (R52, R54). -/
theorem memRead_unrefused {a : Nat} (ha : s.instSize ≤ a) : Unrefused (memRead s a) := by
  obtain ⟨-, hdata⟩ := h
  obtain ⟨v, hv⟩ := hdata a ha
  rw [(memRead_eq_ok_iff s a v).mpr hv]
  exact unrefused_ok v

theorem readPlace_unrefused {d : Token} {p : Place} (hp : resolveDest s d = .ok p) :
    Unrefused (readPlace s p) := by
  cases p with
  | reg r => exact unrefused_ok _
  | cell a =>
    obtain ⟨ha, -⟩ := writesTo_cell_bounds s d a ((resolveDest_eq_ok_iff s d _).mp hp)
    exact memRead_unrefused h ha

theorem resolveSrc_unrefused (src : Token) : Unrefused (resolveSrc s src) := by
  cases hc : classify s.cfg.regNames src with
  | none => rw [resolveSrc, classifyOrRaise_of_none s src hc]; exact unrefused_raise _
  | some o =>
    cases o with
    | reg r => rw [resolveSrc, classifyOrRaise_of_some s src _ hc]; exact unrefused_ok _
    | imm v => rw [resolveSrc, classifyOrRaise_of_some s src _ hc]; exact unrefused_ok _
    | mem a =>
      rw [resolveSrc_of_mem hc]
      cases hk : checkAddr s a with
      | error e => exact unrefused_of_error (checkAddr_unrefused s a) hk
      | ok c =>
        obtain ⟨hlow, -, rfl⟩ := (checkAddr_eq_ok_iff s a c).mp hk
        exact memRead_unrefused h (by omega)

theorem withOperands_unrefused (d src : Token) (f : Place → Word → Word → Pending) :
    Unrefused (withOperands s d src f) := by
  unfold withOperands
  split
  · next hd => exact unrefused_of_error (resolveDest_unrefused s d) hd
  · next p hp =>
    split
    · next hr => exact unrefused_of_error (readPlace_unrefused h hp) hr
    · split
      · next hs => exact unrefused_of_error (resolveSrc_unrefused h src) hs
      · exact unrefused_ok _

theorem nonRegisterArith_unrefused (isDiv : Bool) (d src : Token) :
    Unrefused (nonRegisterArith isDiv s d src) := by
  unfold nonRegisterArith
  split
  · next hc => exact unrefused_of_error (classifyOrRaise_unrefused s d) hc
  · next o _ =>
    split
    · next hk => exact unrefused_of_error (checkUnused_unrefused s o) hk
    · split
      · next hs => exact unrefused_of_error (resolveSrc_unrefused h src) hs
      · split
        · exact unrefused_raise _
        · exact unrefused_ok _

/-! ### Instructions and steps -/

/-- Every instruction ends with an outcome that is not refused, so it has a next state (R54, R137). -/
theorem exec_next_of_regions (i : Instr) : ∃ t, exec i s = .next t := by
  have hpair := fun d src f => complete_next_of_unrefused s (withOperands_unrefused h d src f)
  have hjump := fun l taken => complete_next_of_unrefused s (jump_unrefused s l taken)
  cases i with
  | mov d src =>
    refine complete_next_of_unrefused s ?_
    split
    · next hd => exact unrefused_of_error (resolveDest_unrefused s d) hd
    · split
      · next hs => exact unrefused_of_error (resolveSrc_unrefused h src) hs
      · exact unrefused_ok _
  | add d src => exact hpair d src _
  | sub d src => exact hpair d src _
  | mul d src =>
    refine complete_next_of_unrefused s ?_
    split
    · exact nonRegisterArith_unrefused h false d src
    · split
      · next hs => exact unrefused_of_error (resolveSrc_unrefused h src) hs
      · exact unrefused_ok _
  | div d src =>
    refine complete_next_of_unrefused s ?_
    split
    · exact nonRegisterArith_unrefused h true d src
    · next r _ =>
      split
      · next hs => exact unrefused_of_error (resolveSrc_unrefused h src) hs
      · next b _ => exact divideReg_unrefused s r b
  | and d src => exact hpair d src _
  | or d src => exact hpair d src _
  | not d =>
    refine complete_next_of_unrefused s ?_
    split
    · next hd => exact unrefused_of_error (resolveDest_unrefused s d) hd
    · next hp =>
      split
      · next hr => exact unrefused_of_error (readPlace_unrefused h hp) hr
      · exact unrefused_ok _
  | cmp d src => exact hpair d src _
  | jmp l => exact hjump l _
  | jg l => exact hjump l _
  | jl l => exact hjump l _
  | je l => exact hjump l _

end

/-- A fetch answers exactly the text of the instruction cell at a `pc` that is not negative (R101). -/
theorem fetch_eq_ok_iff (s : State) (t : Text) :
    fetch s = .ok t ↔ 0 ≤ (s.reg .pc).toInt ∧ s.mem.read (s.reg .pc).toInt.toNat = .instr t := by
  unfold fetch
  split
  · next hneg => simp; omega
  · next hneg =>
    have hpc : (s.reg .pc).toInt.toNat = (s.reg .pc).toNat := by
      rw [BitVec.toInt_eq_toNat_cond] at hneg ⊢
      omega
    rw [hpc]
    split <;> simp_all

/-- A cycle that fetched a text completes when every instruction does (R103). -/
theorem cycle_next_of_fetch {s : State} {t : Text} (hfetch : fetch s = .ok t) (h : Regions s) :
    ∃ u, cycle s = .next u := by
  rw [cycle, hfetch]
  dsimp only
  split
  · exact ⟨_, complete_raise s _⟩
  · next i _ => exact exec_next_of_regions h i

/-- Settles O22: a negative `pc` faults, and any other enabled `pc` fetches an instruction, which completes. -/
theorem enabledStepCompletes : Obligations.EnabledStepCompletes := by
  unfold Obligations.EnabledStepCompletes
  intro s hinv hfault hpc
  by_cases hneg : (s.reg .pc).toInt < 0
  · exact ⟨_, negativePcFaults s hfault hneg⟩
  · obtain ⟨-, -, -, -, -, -, hregions⟩ := hinv
    have hreg : Regions s := hregions hfault (by omega)
    have ⟨hinstr, _⟩ := hreg
    obtain ⟨t, ht⟩ := hinstr (s.reg .pc).toInt.toNat (by omega)
    rw [step_of_enabled s ((loopEnd_eq_none_iff s).mpr ⟨hfault, hpc⟩)]
    exact cycle_next_of_fetch ((fetch_eq_ok_iff s t).mpr ⟨by omega, ht⟩) hreg

/-! ### Loading -/

/-- A load that succeeds makes the two regions (R52, R273). -/
theorem regions_load (s : State) (lines : List Text) :
    Regions { s with mem := lineCells 0 lines, instSize := lines.length, labels := [] } := by
  refine ⟨fun a ha => ⟨lines[a], ?_⟩, fun a ha => ⟨0, ?_⟩⟩
  · rw [lineCells_read]
    simp [List.getElem?_eq_getElem ha]
  · rw [lineCells_read]
    simp [List.getElem?_eq_none ha, blankCell]

/-- A failed load leaves canonical memory and labels, whatever it draws, and no program can run (R273, R274). -/
theorem machineInv_takeLoadFault (s : State) (f : FaultCause) (hf : f ≠ .none) (h : MachineInv s) :
    MachineInv (takeLoadFault s f) := by
  obtain ⟨-, -, -, -, -, hcause, -⟩ := machineInv_takeFault s f hf h
  exact ⟨drawnMemory_wf _ _, drawnMemory_below _ _, drawnLabels_rising _ _, drawnLabels_below _ _,
    Nat.le_of_lt_succ (Nat.mod_lt _ (Nat.succ_pos _)), hcause, fun hno => absurd hno (by simp [takeLoadFault])⟩

/-- Every load keeps the invariant, whether it succeeds or fails (R273). -/
theorem machineInv_load (s : State) (source : Option (List Text)) (h : MachineInv s) :
    MachineInv (load source s) := by
  cases source with
  | none => exact machineInv_takeLoadFault s .ioOpen (by decide) h
  | some lines =>
    unfold load
    dsimp only
    split
    · exact machineInv_takeLoadFault s .capacity (by decide) h
    · next hfits =>
      obtain ⟨-, -, -, -, -, hcause, -⟩ := h
      refine ⟨lineCells_wf 0 lines, ?_, rfl, rfl, not_lt.mp hfits, hcause, fun _ _ => regions_load s lines⟩
      rw [addressesBelow_iff]
      intro e he
      have := lineCells_above 0 lines e he
      dsimp only
      omega

/-! ### Runs -/

/-- With the invariant a step is not refused: where it is enabled it completes. -/
theorem step_ne_refused {s : State} (h : MachineInv s) (why : Refusal) : step s ≠ .refused why := by
  intro hstep
  cases hend : loopEnd s with
  | some f => cases (step_of_loopEnd s f hend).symm.trans hstep
  | none =>
    obtain ⟨hfault, hpc⟩ := (loopEnd_eq_none_iff s).mp hend
    obtain ⟨t, ht⟩ := enabledStepCompletes s h hfault hpc
    cases ht.symm.trans hstep

/-- No run from a state with the invariant is refused: every step keeps the invariant. -/
theorem execute_ne_refused (n : Nat) {s : State} (h : MachineInv s) (why : Refusal) (t : State) :
    execute n s ≠ .refused why t := by
  induction n generalizing s with
  | zero =>
    unfold execute
    split
    · simp
    · next r hstep => exact absurd hstep (step_ne_refused h r)
    · simp
  | succ n ih =>
    unfold execute
    split
    · simp
    · next r hstep => exact absurd hstep (step_ne_refused h r)
    · next u hstep => exact ih (stepKeepsInv s u h hstep)

/-- Settles O26: construction has the invariant and a load keeps it. -/
theorem loadedRunNeverRefused : Obligations.LoadedRunNeverRefused := by
  unfold Obligations.LoadedRunNeverRefused
  intro cfg source n why t
  exact execute_ne_refused n (machineInv_load _ source (machineInv_construct cfg)) why t

end Sys2Proof.Machine
end

section
/-! The fetch after a jump in REWRITE (R65, R102, R214). -/

namespace Sys2Proof.Machine

/-- JMP lands on the first cell that defines its label, when that cell is well formed (R213, R216). -/
theorem execJmp_lands (s : State) (l : Token) (a : Nat) (ha : firstLabel s (labelName l) a = true)
    (ht : targetOk s (cellText (s.mem.read a)) = true) : exec (.jmp l) s = .next (s.land a (labelName l)) := by
  show complete s (jump s l true) = _
  rw [jump, (findLabel_eq_ok_iff s _ a).mpr ha]
  dsimp only
  rw [if_pos rfl, takeJump_of_ok s a _ ht, complete_ok, commit_jump]

/-- In REWRITE the cell landed on holds the stripped text, whatever memory is (R214). -/
theorem read_land_rewrite (s : State) (a : Nat) (name : Text) (h : s.cfg.labelMode = .rewrite) :
    (s.land a name).mem.read a = .instr (strip (cellText (s.mem.read a))) := by
  rw [land_mem_rewrite s a name h, memory_read_write_same_of_not_blank _ _ _ (by simp [blankCell])]

/-- After landing on a cell at an `int32` address, `pc` is that address (R104). -/
theorem land_pc_toInt (s : State) (a : Nat) (name : Text) (h : a < 2147483648) :
    ((s.land a name).reg .pc).toInt = a := by
  rw [land_pc, pcOfCell, if_pos h, toInt_ofNat_of_lt a h]

/-- Settles O59: the jump lands on the cell, and the next fetch reads the cell landed on, stripped at its first
space. -/
theorem nextFetchSeesStripped : Obligations.NextFetchSeesStripped := by
  unfold Obligations.NextFetchSeesStripped
  intro s l a before after hmode hlabel hread hbefore ha
  have htext : cellText (s.mem.read a) = before ++ ' ' :: after := by rw [hread, cellText]
  have htarget : targetOk s (cellText (s.mem.read a)) = true := by simp [targetOk, hmode, htext]
  refine ⟨_, execJmp_lands s l a hlabel htarget, (fetch_eq_ok_iff _ after).mpr ?_⟩
  rw [land_pc_toInt s a _ ha]
  refine ⟨Int.natCast_nonneg a, ?_⟩
  rw [Int.toNat_natCast, read_land_rewrite s a _ hmode, htext, strip_append before after hbefore]

end Sys2Proof.Machine
end

section
/-! The decoder on token lists (R76, R77, R84): every list is of one of three kinds, and each kind has its own
outcome. From that the decoder's checks, and the decoding of an encoded line with or without a label. -/

namespace Sys2Proof

/-! ### The opcode map -/

/-- The row of an F2 mnemonic, and the tokens of its instructions (R84). -/
theorem lookup_dualMnemonic : ∀ op ∈ Machine.dualMnemonics,
    ∃ mk, opcodeMap.lookup op = some (.f2 mk) ∧ ∀ d s, encodeTokens (mk d s) = [op, d, comma, s] := by
  simp only [Machine.dualMnemonics, List.forall_mem_cons]
  exact ⟨⟨.mov, rfl, fun _ _ => rfl⟩, ⟨.add, rfl, fun _ _ => rfl⟩, ⟨.sub, rfl, fun _ _ => rfl⟩,
    ⟨.mul, rfl, fun _ _ => rfl⟩, ⟨.div, rfl, fun _ _ => rfl⟩, ⟨.and, rfl, fun _ _ => rfl⟩,
    ⟨.or, rfl, fun _ _ => rfl⟩, ⟨.cmp, rfl, fun _ _ => rfl⟩, by simp⟩

/-- The row of an F1 or FJ mnemonic, and the tokens of its instructions (R84). -/
theorem lookup_singleMnemonic : ∀ op ∈ Machine.singleMnemonics,
    ∃ mk, (opcodeMap.lookup op = some (.f1 mk) ∨ opcodeMap.lookup op = some (.fj mk)) ∧
      ∀ l, encodeTokens (mk l) = [op, l] := by
  simp only [Machine.singleMnemonics, List.forall_mem_cons]
  exact ⟨⟨.not, .inl rfl, fun _ => rfl⟩, ⟨.jmp, .inr rfl, fun _ => rfl⟩, ⟨.jg, .inr rfl, fun _ => rfl⟩,
    ⟨.jl, .inr rfl, fun _ => rfl⟩, ⟨.je, .inr rfl, fun _ => rfl⟩, by simp⟩

/-- A token that is no mnemonic has no row (R84). -/
theorem lookup_of_not_mnemonic {op : Token} (hd : op ∉ Machine.dualMnemonics) (hs : op ∉ Machine.singleMnemonics) :
    opcodeMap.lookup op = none := by
  have hrows : ∀ e ∈ opcodeMap, e.1 ∈ Machine.dualMnemonics ∨ e.1 ∈ Machine.singleMnemonics := by decide
  rw [List.lookup_eq_none_iff]
  intro e he
  rw [bne_iff_ne]
  rintro rfl
  exact (hrows e he).elim hd hs

/-! ### The three kinds of token list -/

/-- No token, or a first token that is no mnemonic (R77). -/
def NoMnemonic (k : List Token) : Prop :=
  k = [] ∨ ∃ op rest, k = op :: rest ∧ op ∉ Machine.dualMnemonics ∧ op ∉ Machine.singleMnemonics

/-- A mnemonic whose format the tokens do not have (R76, R77). -/
def WrongFormat (k : List Token) : Prop :=
  ∃ op rest, k = op :: rest ∧
    ((op ∈ Machine.dualMnemonics ∧ (k.length ≠ 4 ∨ k[2]? ≠ some comma)) ∨
      (op ∈ Machine.singleMnemonics ∧ k.length ≠ 2))

/-- Four tokens with the comma as token 2 are a mnemonic, an operand, the comma and an operand (R76). -/
theorem dual_shape {op : Token} {rest : List Token} (hlen : (op :: rest).length = 4)
    (hcomma : (op :: rest)[2]? = some comma) : ∃ d s, rest = [d, comma, s] := by
  match rest, hlen, hcomma with
  | [d, c, s], _, hcomma => exact ⟨d, s, by simpa using hcomma⟩

/-- Every token list is of one of the three kinds. -/
theorem noMnemonic_or_wrongFormat_or_encoded (k : List Token) :
    NoMnemonic k ∨ WrongFormat k ∨ ∃ i, k = encodeTokens i := by
  match k with
  | [] => exact .inl (.inl rfl)
  | op :: rest =>
    by_cases hd : op ∈ Machine.dualMnemonics
    · by_cases hshape : (op :: rest).length = 4 ∧ (op :: rest)[2]? = some comma
      · obtain ⟨d, s, rfl⟩ := dual_shape hshape.1 hshape.2
        obtain ⟨mk, -, htokens⟩ := lookup_dualMnemonic op hd
        exact .inr (.inr ⟨mk d s, (htokens d s).symm⟩)
      · exact .inr (.inl ⟨op, rest, rfl, .inl ⟨hd, not_and_or.mp hshape⟩⟩)
    · by_cases hs : op ∈ Machine.singleMnemonics
      · by_cases hlen : (op :: rest).length = 2
        · obtain ⟨l, rfl⟩ : ∃ l, rest = [l] := List.length_eq_one_iff.mp (by simpa using hlen)
          obtain ⟨mk, -, htokens⟩ := lookup_singleMnemonic op hs
          exact .inr (.inr ⟨mk l, (htokens l).symm⟩)
        · exact .inr (.inl ⟨op, rest, rfl, .inr ⟨hs, hlen⟩⟩)
      · exact .inl (.inr ⟨op, rest, rfl, hd, hs⟩)

/-! ### The outcome of each kind -/

theorem decodeTokens_of_noMnemonic {k : List Token} (h : NoMnemonic k) :
    decodeTokens k = .error .incorrectInstruction := by
  obtain rfl | ⟨op, rest, rfl, hd, hs⟩ := h
  · rfl
  · simp only [decodeTokens, lookup_of_not_mnemonic hd hs]

theorem decodeOperands_f2_error {mk : Token → Token → Instr} {rest : List Token}
    (h : ∀ d s, rest ≠ [d, comma, s]) : decodeOperands (.f2 mk) rest = .error .format := by
  unfold decodeOperands
  split
  · next d c s hf =>
    split
    · next hc => exact absurd (hc ▸ rfl) (h d s)
    · rfl
  · next hf => cases hf
  · next hf => cases hf
  · rfl

theorem decodeOperands_single_error {f : Format} {mk : Token → Instr} {rest : List Token}
    (hf : f = .f1 mk ∨ f = .fj mk) (h : ∀ l, rest ≠ [l]) : decodeOperands f rest = .error .format := by
  unfold decodeOperands
  split
  · simp at hf
  · next l => exact absurd rfl (h l)
  · next l => exact absurd rfl (h l)
  · rfl

theorem decodeTokens_of_wrongFormat {k : List Token} (h : WrongFormat k) :
    decodeTokens k = .error .format := by
  obtain ⟨op, rest, rfl, ⟨hd, hshape⟩ | ⟨hs, hlen⟩⟩ := h
  · obtain ⟨mk, hrow, -⟩ := lookup_dualMnemonic op hd
    simp only [decodeTokens, hrow]
    refine decodeOperands_f2_error ?_
    rintro d s rfl
    simp at hshape
  · obtain ⟨mk, hrow, -⟩ := lookup_singleMnemonic op hs
    have hrest : ∀ l, rest ≠ [l] := by
      rintro l rfl
      simp at hlen
    obtain hrow | hrow := hrow
    · simp only [decodeTokens, hrow]
      exact decodeOperands_single_error (.inl rfl) hrest
    · simp only [decodeTokens, hrow]
      exact decodeOperands_single_error (.inr rfl) hrest

/-- The decoder reads every instruction from its own tokens (R77). -/
theorem decodeTokens_encodeTokens (i : Instr) : decodeTokens (encodeTokens i) = .ok i := by
  cases i with
  | mov d s => exact Laws.DecodeTokens.mov d s
  | add d s => exact Laws.DecodeTokens.add d s
  | sub d s => exact Laws.DecodeTokens.sub d s
  | mul d s => exact Laws.DecodeTokens.mul d s
  | div d s => exact Laws.DecodeTokens.div d s
  | and d s => exact Laws.DecodeTokens.and d s
  | or d s => exact Laws.DecodeTokens.or d s
  | not d => exact Laws.DecodeTokens.not d
  | cmp d s => exact Laws.DecodeTokens.cmp d s
  | jmp l => exact Laws.DecodeTokens.jmp l
  | jg l => exact Laws.DecodeTokens.jg l
  | jl l => exact Laws.DecodeTokens.jl l
  | je l => exact Laws.DecodeTokens.je l

/-- Settles O4: the three kinds cover every list and have different outcomes, so each outcome comes from its kind
alone. -/
theorem decoderChecks : Obligations.DecoderChecks := by
  unfold Obligations.DecoderChecks
  intro k
  refine ⟨⟨fun h => ?_, decodeTokens_of_noMnemonic⟩, ⟨fun h => ?_, decodeTokens_of_wrongFormat⟩,
    fun i => ⟨fun h => ?_, ?_⟩⟩
  · obtain hk | hk | ⟨j, rfl⟩ := noMnemonic_or_wrongFormat_or_encoded k
    · exact hk
    · cases h.symm.trans (decodeTokens_of_wrongFormat hk)
    · cases h.symm.trans (decodeTokens_encodeTokens j)
  · obtain hk | hk | ⟨j, rfl⟩ := noMnemonic_or_wrongFormat_or_encoded k
    · cases h.symm.trans (decodeTokens_of_noMnemonic hk)
    · exact hk
    · cases h.symm.trans (decodeTokens_encodeTokens j)
  · obtain hk | hk | ⟨j, rfl⟩ := noMnemonic_or_wrongFormat_or_encoded k
    · cases h.symm.trans (decodeTokens_of_noMnemonic hk)
    · cases h.symm.trans (decodeTokens_of_wrongFormat hk)
    · exact congrArg encodeTokens (Except.ok.inj ((decodeTokens_encodeTokens j).symm.trans h))
  · rintro rfl
    exact decodeTokens_encodeTokens i

/-! ### Lines -/

/-- The tokens of the line of a well-formed instruction are its instruction tokens (R72, R76). -/
theorem tokens_encode (i : Instr) (h : Instr.wf i = true) : tokens (encode i) = encodeTokens i := by
  cases i with
  | mov d s => exact Laws.EncodeTokens.mov d s h
  | add d s => exact Laws.EncodeTokens.add d s h
  | sub d s => exact Laws.EncodeTokens.sub d s h
  | mul d s => exact Laws.EncodeTokens.mul d s h
  | div d s => exact Laws.EncodeTokens.div d s h
  | and d s => exact Laws.EncodeTokens.and d s h
  | or d s => exact Laws.EncodeTokens.or d s h
  | not d => exact Laws.EncodeTokens.not d h
  | cmp d s => exact Laws.EncodeTokens.cmp d s h
  | jmp l => exact Laws.EncodeTokens.jmp l h
  | jg l => exact Laws.EncodeTokens.jg l h
  | jl l => exact Laws.EncodeTokens.jl l h
  | je l => exact Laws.EncodeTokens.je l h

/-- A token that ends in a colon is no mnemonic, so a label definition token is never one (R74, R84). -/
theorem not_mnemonic_of_endsInColon {tok : Token} (h : endsInColon tok = true) :
    tok ∉ Machine.dualMnemonics ∧ tok ∉ Machine.singleMnemonics := by
  have hdual : ∀ op ∈ Machine.dualMnemonics, endsInColon op = false := by decide
  have hsingle : ∀ op ∈ Machine.singleMnemonics, endsInColon op = false := by decide
  constructor
  · intro hmem
    cases h.symm.trans (hdual tok hmem)
  · intro hmem
    cases h.symm.trans (hsingle tok hmem)

/-- The first token of an instruction is no label definition token (R75). -/
theorem encodeTokens_eq_cons (i : Instr) :
    ∃ op rest, encodeTokens i = op :: rest ∧ endsInColon op = false := by
  cases i <;> exact ⟨_, _, rfl, rfl⟩

/-- On a line without a label both modes take all tokens (R75). -/
theorem instrTokens_of_tokens {t : Text} {op : Token} {rest : List Token} (mode : LabelMode)
    (htokens : tokens t = op :: rest) (hop : endsInColon op = false) : instrTokens mode t = op :: rest := by
  cases mode with
  | static => simp [instrTokens, htokens, hop]
  | rewrite => simp [instrTokens, htokens]

/-- STATIC drops a leading label definition token, REWRITE does not (R75). -/
theorem instrTokens_of_label {t : Text} {label : Token} {rest : List Token}
    (htokens : tokens t = label :: rest) (hlabel : endsInColon label = true) :
    instrTokens .static t = rest ∧ instrTokens .rewrite t = label :: rest := by
  simp [instrTokens, htokens, hlabel]

/-- Settles O1: the line's tokens are the instruction's, whose first is no label, and the decoder reads those. -/
theorem decodeInvertsEncode : Obligations.DecodeInvertsEncode := by
  unfold Obligations.DecodeInvertsEncode
  intro mode i hwf
  obtain ⟨op, rest, hcons, hop⟩ := encodeTokens_eq_cons i
  have htokens : tokens (encode i) = op :: rest := (tokens_encode i hwf).trans hcons
  rw [decode, instrTokens_of_tokens mode htokens hop, ← hcons, decodeTokens_encodeTokens]

/-- Settles O2: the label is the line's first token, which STATIC drops and which in REWRITE is no mnemonic. -/
theorem labelPrefixByMode : Obligations.LabelPrefixByMode := by
  unfold Obligations.LabelPrefixByMode
  intro name i hname hwf
  have hlabel : endsInColon (name ++ [':']) = true := by simp [endsInColon]
  have htokens : tokens (name ++ [':'] ++ ' ' :: encode i) = (name ++ [':']) :: encodeTokens i := by
    rw [tokens_append_space _ _ (isToken_of_wf _ hname), tokens_encode i hwf]
  obtain ⟨hstatic, hrewrite⟩ := instrTokens_of_label htokens hlabel
  obtain ⟨hdual, hsingle⟩ := not_mnemonic_of_endsInColon hlabel
  constructor
  · rw [decode, hstatic, decodeTokens_encodeTokens]
  · rw [decode, hrewrite]
    exact decodeTokens_of_noMnemonic (.inr ⟨_, _, rfl, hdual, hsingle⟩)

/-- Settles O3: each text is fixed, so the decoder and the classes are evaluated on it. -/
theorem workedDecodes : Obligations.WorkedDecodes := by
  unfold Obligations.WorkedDecodes
  refine ⟨rfl, ?_, ?_, rfl, ?_, ?_, rfl, rfl, ?_, ?_, rfl⟩ <;> decide

end Sys2Proof
end

section
/-! The classes of operand tokens (R78 to R80, R83): literals, bracketed tokens and register names, and what the
spelling of an operand classifies as. -/

namespace Sys2Proof.Machine

/-! ### Bracketed tokens -/

theorem head_of_isBracketed {tok : Token} (h : isBracketed tok = true) : tok.head? = some '[' := by
  simp only [isBracketed, Bool.and_eq_true, beq_iff_eq] at h
  obtain ⟨⟨-, hhead⟩, -⟩ := h
  exact hhead

/-- A token enclosed in brackets is memory-indirect by its form exactly around one or two characters (R80). -/
theorem isBracketed_enclosed (n : Text) (h : n.length = 1 ∨ n.length = 2) :
    isBracketed ('[' :: n ++ [']']) = true := by
  have hlast : ('[' :: n ++ [']']).getLast? = some ']' := List.getLast?_concat
  simp only [isBracketed, hlast, Bool.and_eq_true, Bool.or_eq_true, beq_iff_eq]
  refine ⟨⟨?_, rfl⟩, trivial⟩
  simp only [List.cons_append, List.length_cons, List.length_append, List.length_nil]
  omega

/-- What stands between the brackets (R78). -/
theorem innerText_enclosed (n : Text) : innerText ('[' :: n ++ [']']) = n := by
  simp [innerText]

/-! ### Literals -/

/-- A bracket begins no decimal literal (R79). -/
theorem intLiteral_of_head_bracket {tok : Token} (h : tok.head? = some '[') : intLiteral tok = none := by
  obtain ⟨rest, rfl⟩ := List.head?_eq_some_iff.mp h
  simp [intLiteral, unsignedLiteral, isDecimal]

theorem not_isBracketed_of_intLiteral {tok : Token} {v : Int} (h : intLiteral tok = some v) :
    isBracketed tok = false := by
  by_contra hb
  rw [Bool.not_eq_false] at hb
  cases (intLiteral_of_head_bracket (head_of_isBracketed hb)).symm.trans h

/-- The decimal digits of a number, most significant first, are read back (R13, R79). -/
theorem unsignedLiteral_toDigits (n : Nat) : unsignedLiteral (Nat.toDigits 10 n) = some n := by
  have hdigits : (Nat.toDigits 10 n).all isDecimal = true := by
    rw [List.all_eq_true]
    intro c hc
    have := Nat.isDigit_of_mem_toDigits (by decide) (by decide) hc
    rw [isDecimal_iff]
    simpa [Char.isDigit, Char.le_def] using this
  have hvalue : digitsValue (Nat.toDigits 10 n) = n := by
    rw [digitsValue, ← Nat.ofDigitChars_eq_foldl, Nat.ofDigitChars_ten_toDigits]
  simp [unsignedLiteral, hdigits, hvalue]

/-- Digits without a sign denote their value (R79). -/
theorem denotes_of_unsignedLiteral {ds : Text} {n : Nat} (h : unsignedLiteral ds = some n) : Denotes ds n := by
  cases ds with
  | nil => simp [unsignedLiteral] at h
  | cons c ds => exact (denotes_cons_iff c ds n).mpr (.inl ⟨n, h, rfl⟩)

/-- The spelling of an integer denotes it (R13, R79). -/
theorem denotes_spellInt (v : Int) : Denotes (spellInt v) v := by
  have hdigits := unsignedLiteral_toDigits v.natAbs
  unfold spellInt
  split
  · refine (denotes_cons_iff _ _ v).mpr (.inr (.inr ⟨rfl, _, hdigits, ?_⟩))
    omega
  · have hv : ((v.natAbs : Nat) : Int) = v := by omega
    exact hv ▸ denotes_of_unsignedLiteral hdigits

/-- The addresses that R80 admits are spelled with one or two characters. -/
theorem spellInt_length {a : Int} (hlow : -9 ≤ a) (hhigh : a ≤ 99) :
    (spellInt a).length = 1 ∨ (spellInt a).length = 2 := by
  have hlen := fun (k : Nat) (hk : 0 < k) => Nat.length_toDigits_le_iff (n := a.natAbs) (b := 10) (by decide) hk
  have hpos : 0 < (Nat.toDigits 10 a.natAbs).length := Nat.length_toDigits_pos
  unfold spellInt
  split
  · have hone : (Nat.toDigits 10 a.natAbs).length ≤ 1 := (hlen 1 (by decide)).mpr (by omega)
    rw [List.length_cons]
    omega
  · have htwo : (Nat.toDigits 10 a.natAbs).length ≤ 2 := (hlen 2 (by decide)).mpr (by omega)
    omega

/-! ### Register names -/

theorem mem_allRegs (r : Reg) : r ∈ allRegs := by
  cases r <;> decide

theorem regName_of_regNamed {names : RegNames} {tok : Token} {r : Reg} (h : regNamed names tok = some r) :
    regName names r = tok := by
  simpa using List.find?_some h

section
variable {names : RegNames} (h : regNamesAdmitted names = true)
include h

/-- Admitted names are distinct (R83). -/
theorem regName_injective {q r : Reg} (heq : regName names q = regName names r) : q = r := by
  simp only [regNamesAdmitted, Bool.and_eq_true, decide_eq_true_eq] at h
  obtain ⟨hnodup, -⟩ := h
  exact List.inj_on_of_nodup_map hnodup (mem_allRegs q) (mem_allRegs r) heq

/-- No admitted name is a literal or encloses one in the memory-indirect form (R83). -/
theorem regName_no_literal (r : Reg) :
    intLiteral (regName names r) = none ∧
      (isBracketed (regName names r) = true → intLiteral (innerText (regName names r)) = none) := by
  simp only [regNamesAdmitted, Bool.and_eq_true, List.all_eq_true] at h
  obtain ⟨-, hall⟩ := h
  obtain ⟨⟨-, hliteral⟩, hbracketed⟩ := hall r (mem_allRegs r)
  refine ⟨Option.isNone_iff_eq_none.mp hliteral, fun hb => ?_⟩
  simpa [hb] using hbracketed

theorem regNamed_regName (r : Reg) : regNamed names (regName names r) = some r := by
  cases hfind : regNamed names (regName names r) with
  | none =>
    have := List.find?_eq_none.mp hfind r (mem_allRegs r)
    simp at this
  | some q => rw [regName_injective h (regName_of_regNamed hfind)]

theorem regNamed_of_literal {tok : Token} {v : Int} (hv : intLiteral tok = some v) :
    regNamed names tok = none := by
  rw [Option.eq_none_iff_forall_ne_some]
  intro r hr
  obtain ⟨hliteral, -⟩ := regName_no_literal h r
  rw [regName_of_regNamed hr, hv] at hliteral
  cases hliteral

theorem regNamed_of_bracketed_literal {tok : Token} {v : Int} (hb : isBracketed tok = true)
    (hv : intLiteral (innerText tok) = some v) : regNamed names tok = none := by
  rw [Option.eq_none_iff_forall_ne_some]
  intro r hr
  obtain ⟨-, hinner⟩ := regName_no_literal h r
  rw [regName_of_regNamed hr, hv] at hinner
  cases hinner hb

end

/-! ### What a token that names no register classifies as -/

section
variable {names : RegNames} {tok : Token} (h : regNamed names tok = none)
include h

/-- The memory-indirect form around what the literal reader answers (R78). -/
theorem classify_of_bracketed (hb : isBracketed tok = true) :
    classify names tok = (intLiteral (innerText tok)).map Operand.mem := by
  simp [classify, h, hb]

/-- A literal is an immediate exactly in the `int32` range (R78, R79). -/
theorem classify_of_literal {v : Int} (hv : intLiteral tok = some v) :
    classify names tok = if -2147483648 ≤ v ∧ v ≤ 2147483647 then some (.imm (wrap32 v)) else none := by
  simp [classify, h, not_isBracketed_of_intLiteral hv, hv, isInt32]

/-- Neither of the memory-indirect form nor a literal, a token is of no class (R78). -/
theorem classify_eq_none (hb : isBracketed tok = false) (hv : intLiteral tok = none) :
    classify names tok = none := by
  simp [classify, h, hb, hv]

end

/-! ### The obligations -/

/-- Settles O6: an admitted name is no literal, so a literal reaches the range check; any other token reaches the
last case of `Classify`. -/
theorem literalRange : Obligations.LiteralRange := by
  unfold Obligations.LiteralRange
  intro names tok
  constructor
  · intro v hadmitted hdenotes
    have hv := (intLiteral_eq_some_iff tok v).mpr hdenotes
    exact classify_of_literal (regNamed_of_literal hadmitted hv) hv
  · intro hdenotes hreg hends
    have hb : isBracketed tok = false := by
      simp only [isBracketed, Bool.and_eq_false_iff, beq_eq_false_iff_ne]
      tauto
    exact classify_eq_none hreg hb ((intLiteral_eq_none_iff tok).mpr hdenotes)

/-- Settles O7: of another length the token has not the memory-indirect form, and its bracket begins no literal. -/
theorem bracketLength : Obligations.BracketLength := by
  unfold Obligations.BracketLength
  intro names tok hreg hhead hthree hfour
  have hb : isBracketed tok = false := by simp [isBracketed, hthree, hfour]
  exact classify_eq_none hreg hb (intLiteral_of_head_bracket hhead)

/-- Settles O60: the token has the memory-indirect form, so what it encloses decides. -/
theorem bracketedAddress : Obligations.BracketedAddress := by
  unfold Obligations.BracketedAddress
  intro names n hlen
  have hb := isBracketed_enclosed n hlen
  have hinner := innerText_enclosed n
  constructor
  · intro v hadmitted hdenotes
    have hv : intLiteral (innerText ('[' :: n ++ [']'])) = some v := by
      rw [hinner, intLiteral_eq_some_iff]
      exact hdenotes
    rw [classify_of_bracketed (regNamed_of_bracketed_literal hadmitted hb hv) hb, hv]
    rfl
  · intro hdenotes hreg
    rw [classify_of_bracketed hreg hb, hinner, (intLiteral_eq_none_iff n).mpr hdenotes]
    rfl

/-- Settles O5, class by class: a register's name is found, and an address or immediate is spelled by a literal
that denotes it. -/
theorem spelledOperandClassifies : Obligations.SpelledOperandClassifies := by
  unfold Obligations.SpelledOperandClassifies
  intro names o hadmitted hwf
  cases o with
  | reg r => exact (classify_eq_reg_iff names _ r).mpr (regNamed_regName hadmitted r)
  | mem a =>
    simp only [Operand.wf, Bool.and_eq_true, decide_eq_true_eq] at hwf
    obtain ⟨hlow, hhigh⟩ := hwf
    obtain ⟨haddress, -⟩ := bracketedAddress names (spellInt a) (spellInt_length hlow hhigh)
    exact haddress a hadmitted (denotes_spellInt a)
  | imm v =>
    obtain ⟨hliteral, -⟩ := literalRange names (spellInt v.toInt)
    have hrange : -2147483648 ≤ v.toInt ∧ v.toInt ≤ 2147483647 := by
      have hlow := BitVec.le_toInt v
      have hhigh := BitVec.toInt_lt (x := v)
      omega
    rw [spellOperand, hliteral v.toInt hadmitted (denotes_spellInt v.toInt), if_pos hrange, wrap32,
      BitVec.ofInt_toInt]

end Sys2Proof.Machine
end

section
/-! The operand faults of tokens of no class and of immediates (R78, R82, R110, R112), and MUL and DIV on an operand 1
they do not write (R154). -/

namespace Sys2Proof.Machine

section
variable {s : State} {d src : Token}

theorem resolveSrc_of_none (h : classify s.cfg.regNames src = none) :
    resolveSrc s src = .error (.raise .operandSyntax) := by
  rw [resolveSrc, classifyOrRaise_of_none s src h]

/-- An operand 1 that MUL and DIV do not write is no register and passes its check (R154). -/
theorem idle_passes (h : isIdleDest s d = true) :
    regNamed s.cfg.regNames d = none ∧ ∃ o, classifyOrRaise s d = .ok o ∧ checkUnused s o = .ok () := by
  unfold isIdleDest at h
  split at h
  · next a hc =>
    simp only [Bool.and_eq_true, decide_eq_true_eq] at h
    obtain ⟨hlow, hhigh⟩ := h
    have hk : checkAddr s a = .ok a.toNat := (checkAddr_eq_ok_iff s a _).mpr ⟨hlow, hhigh, rfl⟩
    exact ⟨regNamed_eq_none_of_classify (by simp [hc]), _, classifyOrRaise_of_some s d _ hc,
      by simp [checkUnused, hk]⟩
  · next v hc =>
    exact ⟨regNamed_eq_none_of_classify (by simp [hc]), _, classifyOrRaise_of_some s d _ hc, rfl⟩
  · cases h
  · cases h

/-- On such an operand 1, and a source that resolves, only DIV by 0 faults, and nothing is written (R154). -/
theorem nonRegisterArith_of_idle {b : Word} (isDiv : Bool) (hd : isIdleDest s d = true)
    (hb : readsAs s src b = true) :
    nonRegisterArith isDiv s d src = if isDiv && b == 0 then .error (.raise .divZero) else .ok {} := by
  obtain ⟨-, o, hclass, hcheck⟩ := idle_passes hd
  simp only [nonRegisterArith, hclass, hcheck, (resolveSrc_eq_ok_iff s src b).mpr hb]

end

/-! ### The obligations -/

/-- Settles O50: OPERAND_SHAPE is how the resolution of operand 1 ends, and that ends the instruction. -/
theorem immediateDestFaults : Obligations.ImmediateDestFaults := by
  unfold Obligations.ImmediateDestFaults
  intro s d src v hfault hd
  have hdest := resolveDest_of_imm hd
  exact ⟨fun op hop => faults_of_eq_raise hfault (exec_shaped_of_dest_error hdest op hop),
    faults_of_eq_raise hfault (execNot_of_dest_error hdest)⟩

/-- Settles O51: likewise for OPERAND_SYNTAX of operand 1, which MUL and DIV raise too. -/
theorem destSyntaxFaults : Obligations.DestSyntaxFaults := by
  unfold Obligations.DestSyntaxFaults
  intro s d src hfault hd
  have hdest := resolveDest_of_none hd
  exact ⟨fun op hop => faults_of_eq_raise hfault (exec_dual_of_dest_error (by decide) hdest op hop),
    faults_of_eq_raise hfault (execNot_of_dest_error hdest)⟩

/-- Settles O52: OPERAND_SYNTAX is how operand 2 resolves, and that decides once operand 1 is resolved. -/
theorem sourceSyntaxFaults : Obligations.SourceSyntaxFaults := by
  unfold Obligations.SourceSyntaxFaults
  intro s d src hfault hsrc
  have herr := resolveSrc_of_none hsrc
  constructor
  · intro p v hp hv op hop
    exact faults_of_eq_raise hfault (exec_dual_of_src_error hp hv herr op hop)
  · intro hidle
    obtain ⟨hmul, hdiv⟩ := exec_mul_div_of_src_error_of_idle hidle herr
    exact ⟨faults_of_eq_raise hfault hmul, faults_of_eq_raise hfault hdiv⟩

/-- Settles O40: with operand 1 idle and operand 2 resolved, what is left of MUL and DIV is the test for divisor 0. -/
theorem mulDivIdle : Obligations.MulDivIdle := by
  unfold Obligations.MulDivIdle
  intro s d src b hd hb
  obtain ⟨hreg, -⟩ := idle_passes hd
  rw [execMul_of_not_reg hreg, execDiv_of_not_reg hreg, nonRegisterArith_of_idle false hd hb,
    nonRegisterArith_of_idle true hd hb]
  have hzero : b.toInt = 0 ↔ b = 0 := BitVec.toInt_inj (y := 0)
  refine ⟨⟨_, rfl, advance_advances s⟩, fun hne => ?_, fun heq hfault => ?_⟩
  · rw [if_neg (by simpa [hzero] using hne)]
    exact ⟨_, rfl, advance_advances s⟩
  · rw [if_pos (by simpa [hzero] using heq)]
    exact faults_of_eq_raise hfault rfl

end Sys2Proof.Machine
end

section
/-! The step on a text that does not decode (R77, R103), and the two spellings of a jump's operand (R81, R210). -/

namespace Sys2Proof.Machine

/-- A fetched text that does not decode ends the cycle with the decoder's fault (R103). -/
theorem cycle_of_decode_error {s : State} {t : Text} {f : FaultCause} (hfetch : fetch s = .ok t)
    (hdecode : decode s.cfg.labelMode t = .error f) : cycle s = complete s (.error (.raise f)) := by
  simp only [cycle, hfetch, hdecode]

/-- Settles O18: the enabled step fetches the text, and the decoder's fault is taken. -/
theorem stepTakesDecodeFault : Obligations.StepTakesDecodeFault := by
  unfold Obligations.StepTakesDecodeFault
  intro s t f hfault hlow hhigh hread hdecode
  have hfetch : fetch s = .ok t := (fetch_eq_ok_iff s t).mpr ⟨hlow, hread⟩
  rw [step_of_enabled s ((loopEnd_eq_none_iff s).mpr ⟨hfault, hhigh⟩)]
  exact faults_of_eq_raise hfault (cycle_of_decode_error hfetch hdecode)

/-- One final colon is taken off, once (R81). -/
theorem labelName_colon (name : Text) : labelName (name ++ [':']) = name := by
  simp [labelName, endsInColon]

theorem labelName_of_no_colon {name : Text} (h : endsInColon name = false) : labelName name = name := by
  simp [labelName, h]

/-- A jump depends on its operand through the label name alone (R210). -/
theorem exec_jump_congr {l l' : Token} (s : State) (h : labelName l = labelName l') :
    ∀ op ∈ jumps, exec (op l) s = exec (op l') s := by
  have hjump : ∀ taken, complete s (jump s l taken) = complete s (jump s l' taken) := by
    intro taken
    rw [jump, jump, h]
  simp only [jumps, List.forall_mem_cons]
  exact ⟨hjump true, hjump (isGreater s), hjump (isLess s), hjump (isEqual s), by simp⟩

/-- Settles O58: both spellings have the same label name. -/
theorem jumpSpellingsAgree : Obligations.JumpSpellingsAgree := by
  unfold Obligations.JumpSpellingsAgree
  intro s name hname
  exact exec_jump_congr s ((labelName_colon name).trans (labelName_of_no_colon hname).symm)

end Sys2Proof.Machine
end

section
/-! The turns of a run (R100, R107, R275): when the step answers that no step is enabled, that a fault is taken
without another change, and how a run that ended was composed of steps. -/

namespace Sys2Proof.Machine

/-! ### Where the loop ends -/

/-- The loop test ends a run with a fault halt exactly with `FAULT = 1` (R100, R107). -/
theorem loopEnd_eq_faultHalt_iff (s : State) : loopEnd s = some .faultHalt ↔ s.fault = true := by
  unfold loopEnd
  cases s.fault <;> simp

/-- Every instruction ends by completing an outcome (R103). -/
theorem exec_eq_complete (i : Instr) (s : State) : ∃ x, exec i s = complete s x := by
  cases i <;> exact ⟨_, rfl⟩

/-- Completing an outcome never stops the loop by itself: a raise is a next state (R105, R137). -/
theorem complete_ne_fault (s : State) (x : Except Stop Pending) (why : Fault) : complete s x ≠ .fault why := by
  match x with
  | .ok q => simp
  | .error (.raise f) => simp
  | .error (.refuse r) => simp

theorem cycle_ne_fault (s : State) (why : Fault) : cycle s ≠ .fault why := by
  unfold cycle
  split
  · exact complete_ne_fault s _ why
  · split
    · exact complete_ne_fault s _ why
    · next i _ =>
      obtain ⟨x, hx⟩ := exec_eq_complete i s
      rw [hx]
      exact complete_ne_fault s x why

/-- The step stops exactly where the loop test ends, for the same reason (R100). -/
theorem step_eq_fault_iff (s : State) (why : Fault) : step s = .fault why ↔ loopEnd s = some why := by
  refine ⟨fun h => ?_, step_of_loopEnd s why⟩
  cases hend : loopEnd s with
  | none => exact absurd ((step_of_enabled s hend).symm.trans h) (cycle_ne_fault s why)
  | some why' =>
    rw [step_of_loopEnd s why' hend] at h
    exact congrArg some (Host.Outcome.fault.inj h)

/-- Settles O20, from the two ends of the loop test. -/
theorem noStepAfterEnd : Obligations.NoStepAfterEnd := by
  unfold Obligations.NoStepAfterEnd
  intro s
  constructor
  · intro hfault
    exact step_of_loopEnd s _ ((loopEnd_eq_faultHalt_iff s).mpr hfault)
  · intro hfault hpc
    exact step_of_loopEnd s _ ((loopEnd_eq_normalHalt_iff s).mpr ⟨hfault, hpc⟩)

/-! ### Runs by their first step -/

/-- Where no step is enabled a run ends at once, whatever its fuel (R100). -/
theorem execute_of_fault {s : State} {why : Fault} (n : Nat) (h : step s = .fault why) :
    execute n s = .ended why s := by
  rw [execute.eq_def, h]

/-- After a next state a run goes on from it, with one unit of fuel less (R100). -/
theorem execute_of_next {s u : State} (n : Nat) (h : step s = .next u) :
    execute (n + 1) s = execute n u := by
  rw [execute.eq_def, h]

/-- A run that ended began where no step is enabled, or with a step and a run that ended. -/
theorem execute_eq_ended {n : Nat} {s t : State} {why : Fault} (h : execute n s = .ended why t) :
    (step s = .fault why ∧ s = t) ∨ ∃ m u, n = m + 1 ∧ step s = .next u ∧ execute m u = .ended why t := by
  cases hstep : step s with
  | fault why' =>
    rw [execute_of_fault n hstep] at h
    cases h
    exact .inl ⟨rfl, rfl⟩
  | refused r =>
    rw [execute.eq_def, hstep] at h
    cases h
  | next u =>
    cases n with
    | zero =>
      rw [execute.eq_def, hstep] at h
      cases h
    | succ m => exact .inr ⟨m, u, rfl, rfl, (execute_of_next m hstep).symm.trans h⟩

/-- A run ends in a state in which no step is enabled, for the reason it gives (R107). -/
theorem step_of_execute_ended (n : Nat) {s t : State} {why : Fault} (h : execute n s = .ended why t) :
    step t = .fault why := by
  induction n generalizing s with
  | zero =>
    obtain ⟨hstep, rfl⟩ | ⟨m, u, hm, -, -⟩ := execute_eq_ended h
    · exact hstep
    · cases hm
  | succ n ih =>
    obtain ⟨hstep, rfl⟩ | ⟨m, u, hm, -, hrun⟩ := execute_eq_ended h
    · exact hstep
    · cases hm
      exact ih hrun

/-- More fuel does not change how a run ended (R107). -/
theorem execute_add_fuel (n k : Nat) {s t : State} {why : Fault} (h : execute n s = .ended why t) :
    execute (n + k) s = .ended why t := by
  induction n generalizing s with
  | zero =>
    obtain ⟨hstep, rfl⟩ | ⟨m, u, hm, -, -⟩ := execute_eq_ended h
    · exact execute_of_fault _ hstep
    · cases hm
  | succ n ih =>
    obtain ⟨hstep, rfl⟩ | ⟨m, u, hm, hstep, hrun⟩ := execute_eq_ended h
    · exact execute_of_fault _ hstep
    · cases hm
      rw [Nat.add_right_comm, execute_of_next _ hstep]
      exact ih hrun

/-! ### The obligations -/

/-- Settles O15: in the state a run ended in, the step stops, so the loop test ended by one of its two ends. -/
theorem runEndKinds : Obligations.RunEndKinds := by
  unfold Obligations.RunEndKinds
  intro n s t why h
  have hend : loopEnd t = some why := (step_eq_fault_iff t why).mp (step_of_execute_ended n h)
  cases why with
  | normalHalt => exact .inl ⟨rfl, (loopEnd_eq_normalHalt_iff t).mp hend⟩
  | faultHalt => exact .inr ⟨rfl, (loopEnd_eq_faultHalt_iff t).mp hend⟩

/-- Settles O16: fuel left over is not used, and from the end no step is enabled. -/
theorem runEndIsFinal : Obligations.RunEndIsFinal := by
  unfold Obligations.RunEndIsFinal
  intro n s t why h k
  exact ⟨execute_add_fuel n k h, execute_of_fault k (step_of_execute_ended n h)⟩

/-- Settles O10: after `clear` both `pc` and `instSize` are 0, so the loop test ends normally (R272). -/
theorem clearedRunsNothing : Obligations.ClearedRunsNothing := by
  unfold Obligations.ClearedRunsNothing
  intro s n
  have hend : loopEnd (clear s) = some .normalHalt := by
    rw [loopEnd_eq_normalHalt_iff]
    simp
  exact execute_of_fault n (step_of_loopEnd _ _ hend)

/-! ### Faults -/

/-- With `FAULT = 0`, an instruction leaves `FAULT` set only by taking a fault: no commit writes it (R104, R105). -/
theorem faulted_of_fault_set {i : Instr} {s t : State} (h : NextShape i s t) (hs : s.fault = false)
    (ht : t.fault = true) : ∃ f, f ≠ .none ∧ t = takeFault s f := by
  have hcommit : ∀ q, (commit s q).fault = false := fun q => (sameFrame_fault (sameFrame_commit s q)).trans hs
  cases h with
  | fault f hf => exact ⟨f, hf, rfl⟩
  | advance hi => cases hs.symm.trans ht
  | store d p v hd hp => cases (hcommit _).symm.trans ht
  | storeExact d src p e hd hp hi he => cases (hcommit _).symm.trans ht
  | compare d src a b hi ha hb => cases (hcommit _).symm.trans ht
  | land l a hi ha hok => cases ((land_fault s a _).trans hs).symm.trans ht

/-- Settles O27: the fault was taken by the fetch or the decoder, or by the instruction, and taking one sets only
`FAULT` and `FCAUSE`. -/
theorem faultsArePrecise : Obligations.FaultsArePrecise := by
  unfold Obligations.FaultsArePrecise
  intro s t hstep ht
  obtain ⟨hend, hcases⟩ := step_eq_next s t hstep
  obtain ⟨hs, -⟩ := (loopEnd_eq_none_iff s).mp hend
  obtain ⟨f, hf, rfl⟩ : ∃ f, f ≠ .none ∧ t = takeFault s f := by
    obtain hfetch | ⟨i, u, -, -, -, hexec⟩ := hcases
    · exact hfetch
    · exact faulted_of_fault_set (exec_shape i s t hexec) hs ht
  rw [takeFault_of_no_fault s f hs]
  exact ⟨rfl, hf⟩

end Sys2Proof.Machine
end

section
/-! The step as its instruction (R100, R101, R103), and the line placed where the step fetches (log 5, log 6). -/

namespace Sys2Proof.Machine

/-- A fetched text that decodes is the instruction run, with nothing around it (R103). -/
theorem cycle_of_decode_ok {s : State} {t : Text} {i : Instr} (hfetch : fetch s = .ok t)
    (hdecode : decode s.cfg.labelMode t = .ok i) : cycle s = exec i s := by
  simp only [cycle, hfetch, hdecode]

/-- Settles O17: the enabled step fetches the text, and runs what it decodes to. -/
theorem stepRunsDecoded : Obligations.StepRunsDecoded := by
  unfold Obligations.StepRunsDecoded
  intro s t i hfault hlow hhigh hread hdecode
  have hfetch : fetch s = .ok t := (fetch_eq_ok_iff s t).mpr ⟨hlow, hread⟩
  rw [step_of_enabled s ((loopEnd_eq_none_iff s).mpr ⟨hfault, hhigh⟩)]
  exact cycle_of_decode_ok hfetch hdecode

/-! ### A placed line -/

section
variable (s : State) (t : Text)

@[simp] theorem placeLine_cfg : (placeLine s t).cfg = s.cfg := rfl
@[simp] theorem placeLine_fault : (placeLine s t).fault = false := rfl
@[simp] theorem placeLine_instSize : (placeLine s t).instSize = max s.instSize (fetchCell s + 1) := rfl
@[simp] theorem placeLine_pc : (placeLine s t).reg .pc = BitVec.ofNat 32 (fetchCell s) := rfl

/-- The line stands in the cell it was placed in. -/
theorem read_placeLine : (placeLine s t).mem.read (fetchCell s) = .instr t :=
  memory_read_write_same_of_not_blank s.mem (fetchCell s) (.instr t) (by simp [blankCell])

end

/-- The cell a line is placed in is an address that `pc` can hold. -/
theorem fetchCell_lt (s : State) : fetchCell s < 2147483648 := by
  unfold fetchCell
  split
  · next h =>
    obtain ⟨hlow, -⟩ := h
    rw [BitVec.toInt_eq_toNat_cond] at hlow
    omega
  · decide

/-- Settles O21: a placed line stands at `pc`, in the instruction region, with `FAULT = 0`. -/
theorem placedWordRuns : Obligations.PlacedWordRuns := by
  unfold Obligations.PlacedWordRuns
  intro s nbits w i hdecode
  have hpc : ((s.withFetchWord nbits w).reg .pc).toInt = fetchCell s := by
    rw [State.withFetchWord, placeLine_pc, toInt_ofNat_of_lt _ (fetchCell_lt s)]
  refine stepRunsDecoded _ (wordText nbits w) i (placeLine_fault s _) ?_ ?_ ?_ hdecode
  · omega
  · rw [hpc, State.withFetchWord, placeLine_instSize]
    omega
  · rw [hpc, Int.toNat_natCast]
    exact read_placeLine s _

end Sys2Proof.Machine
end

section
/-! ADD, SUB, MUL and DIV on operands that resolve (R150 to R153, R155). -/

namespace Sys2Proof.Machine

/-! ### What each instruction ends with -/

section
variable {s : State} {d src : Token} {p : Place} {r : Reg} {a b : Word}

theorem execAdd_of_resolved (hp : writesTo s d p = true) (ha : readsAs s d a = true)
    (hb : readsAs s src b = true) :
    exec (.add d src) s = .next (commit s (exactResult s.cfg.ovfMode p (a.toInt + b.toInt))) :=
  congrArg (complete s) (withOperands_of_resolved s d src _ p a b hp ha hb)

theorem execSub_of_resolved (hp : writesTo s d p = true) (ha : readsAs s d a = true)
    (hb : readsAs s src b = true) :
    exec (.sub d src) s = .next (commit s (exactResult s.cfg.ovfMode p (a.toInt - b.toInt))) :=
  congrArg (complete s) (withOperands_of_resolved s d src _ p a b hp ha hb)

/-- The destinations MUL and DIV compute into are the tokens that name a register (R153, R155). -/
theorem regNamed_of_writesTo (hd : writesTo s d (.reg r) = true) : regNamed s.cfg.regNames d = some r :=
  (classify_eq_reg_iff _ _ _).mp ((writesTo_reg_iff s d r).mp hd)

theorem execMul_of_reg (hd : writesTo s d (.reg r) = true) (hb : readsAs s src b = true) :
    exec (.mul d src) s =
      .next (commit s (exactResult s.cfg.ovfMode (.reg r) ((s.reg r).toInt * b.toInt))) := by
  show execMul d src s = _
  simp only [execMul, regNamed_of_writesTo hd, (resolveSrc_eq_ok_iff s src b).mpr hb, complete_ok]

theorem execDiv_of_reg (hd : writesTo s d (.reg r) = true) (hb : readsAs s src b = true) :
    exec (.div d src) s = complete s (divideReg s r b) := by
  show execDiv d src s = _
  simp only [execDiv, regNamed_of_writesTo hd, (resolveSrc_eq_ok_iff s src b).mpr hb]

/-! ### The checks of the divisor -/

theorem divideReg_of_zero (hb : b.toInt = 0) : divideReg s r b = .error (.raise .divZero) := by
  rw [divideReg, if_pos hb]

theorem divideReg_of_overflow (ha : (s.reg r).toInt = -2147483648) (hb : b.toInt = -1) :
    divideReg s r b = .error (.raise .divOverflow) := by
  rw [divideReg, if_neg (by omega), if_pos ⟨ha, hb⟩]

end

/-! ### The obligations -/

/-- Settles O36: on resolved operands ADD and SUB commit an exact result, which stores it. -/
theorem addSubStore : Obligations.AddSubStore := by
  unfold Obligations.AddSubStore
  intro s d src p a b hm hp ha hb
  exact ⟨⟨_, execAdd_of_resolved hp ha hb, commit_exactResult_stores s p _ hm⟩,
    ⟨_, execSub_of_resolved hp ha hb, commit_exactResult_stores s p _ hm⟩⟩

/-- Settles O37: likewise for MUL, into a register. -/
theorem mulStores : Obligations.MulStores := by
  unfold Obligations.MulStores
  intro s d src r b hm hd hb
  exact ⟨_, execMul_of_reg hd hb, commit_exactResult_stores s (.reg r) _ hm⟩

/-- Settles O39: once the operands are resolved, DIV ends as the check of the divisor does. -/
theorem divFaults : Obligations.DivFaults := by
  unfold Obligations.DivFaults
  intro s d src r b hfault hd hb
  rw [execDiv_of_reg hd hb]
  constructor
  · intro hzero
    exact faults_of_eq_raise hfault (congrArg (complete s) (divideReg_of_zero hzero))
  · rintro ⟨hleast, hminus⟩
    exact faults_of_eq_raise hfault (congrArg (complete s) (divideReg_of_overflow hleast hminus))

end Sys2Proof.Machine
end

section
/-! DIV stores the quotient rounded toward zero (R156), and SUB of an immediate undoes ADD of it (R151, R152). -/

namespace Sys2Proof.Machine

/-! ### The quotient -/

/-- The model's truncating quotient is the one R156 writes down: its sign is the product of the signs, unless the
absolute quotient is 0. -/
theorem tdiv_eq_sign_mul_natAbs_div (a b : Int) :
    a.tdiv b = a.sign * b.sign * ((a.natAbs / b.natAbs : Nat) : Int) := by
  have habs : (a.tdiv b).natAbs = a.natAbs / b.natAbs := Int.natAbs_tdiv a b
  rw [← Int.sign_mul_natAbs (a.tdiv b), habs, Int.sign_tdiv]
  split
  · next hlt => simp [Nat.div_eq_of_lt hlt]
  · rfl

/-- Every quotient but that of the least `int32` by -1 is an `int32` (R155). -/
theorem toInt_wrap32_tdiv (a b : Word) (h : ¬ (a.toInt = -2147483648 ∧ b.toInt = -1)) :
    (wrap32 (a.toInt.tdiv b.toInt)).toInt = a.toInt.tdiv b.toInt := by
  have hne : a ≠ BitVec.intMin 32 ∨ b ≠ -1#32 := by
    by_contra hboth
    rw [not_or, not_ne_iff, not_ne_iff] at hboth
    obtain ⟨rfl, rfl⟩ := hboth
    exact h (by decide)
  rw [wrap32, BitVec.toInt_ofInt, ← BitVec.toInt_sdiv, BitVec.toInt_sdiv_of_ne_or_ne a b hne]

/-- A divisor that passes both checks gives the wrapped quotient to the register (R155). -/
theorem divideReg_of_quotient {s : State} {r : Reg} {b : Word} (hb : b.toInt ≠ 0)
    (h : ¬ ((s.reg r).toInt = -2147483648 ∧ b.toInt = -1)) :
    divideReg s r b = .ok { dest := some (.reg r, wrap32 ((s.reg r).toInt.tdiv b.toInt)) } := by
  rw [divideReg, if_neg hb, if_neg h]

theorem execDiv_of_quotient {s : State} {d src : Token} {r : Reg} {b : Word} (hd : writesTo s d (.reg r) = true)
    (hb : readsAs s src b = true) (hzero : b.toInt ≠ 0)
    (hrange : ¬ ((s.reg r).toInt = -2147483648 ∧ b.toInt = -1)) :
    exec (.div d src) s =
      .next (commit s { dest := some (.reg r, wrap32 ((s.reg r).toInt.tdiv b.toInt)) }) := by
  rw [execDiv_of_reg hd hb, divideReg_of_quotient hzero hrange, complete_ok]

/-- Settles O38: past both checks DIV commits the truncated quotient, which wrapping leaves as it is. -/
theorem divStores : Obligations.DivStores := by
  unfold Obligations.DivStores
  intro s d src r b hm hd hb hzero hrange
  refine ⟨_, _, execDiv_of_quotient hd hb hzero hrange, commit_dest_stores s (.reg r) _ hm, ?_⟩
  rw [toInt_wrap32_tdiv _ _ hrange, tdiv_eq_sign_mul_natAbs_div]

/-! ### ADD and then SUB -/

/-- A destination register but `PC` and `OF` holds the value written: neither the overflow write nor the increment
touches it (R104). -/
theorem reg_commit_dest_same {r : Reg} (s : State) (v : Word) (ovf : Bool) (hpc : r ≠ .pc) (hof : r ≠ .of) :
    (commit s { dest := some (.reg r, v), ovf := ovf }).reg r = v := by
  rw [commit_dest_flag, reg_advance_other _ r hpc, writePlace_reg]
  cases ovf with
  | false => exact reg_setReg_same s r v
  | true => exact (reg_setReg_other _ .of r 1 hof).trans (reg_setReg_same s r v)

/-- An immediate reads as itself (R112). -/
theorem readsAs_of_imm {s : State} {src : Token} {v : Word} (h : classify s.cfg.regNames src = some (.imm v)) :
    readsAs s src v = true := by
  simp [readsAs, h]

/-- Wrapped addition is undone by wrapped subtraction: `wrap32` commutes with both (R10). -/
theorem wrap32_add_sub_cancel (a b : Word) : wrap32 ((wrap32 (a.toInt + b.toInt)).toInt - b.toInt) = a := by
  simp only [wrap32, sub_eq_add_neg, BitVec.ofInt_add, BitVec.ofInt_neg, BitVec.ofInt_toInt]
  exact add_neg_cancel_right a b

section
variable {s : State} {d src : Token} {r : Reg} {v : Word} (hd : classify s.cfg.regNames d = some (.reg r))
  (hsrc : classify s.cfg.regNames src = some (.imm v))
include hd hsrc

theorem execAdd_of_reg_imm : exec (.add d src) s =
    .next (commit s (exactResult s.cfg.ovfMode (.reg r) ((s.reg r).toInt + v.toInt))) :=
  execAdd_of_resolved ((writesTo_reg_iff s d r).mpr hd)
    (regNamed_readsAs s d r ((classify_eq_reg_iff _ _ _).mp hd)) (readsAs_of_imm hsrc)

theorem execSub_of_reg_imm : exec (.sub d src) s =
    .next (commit s (exactResult s.cfg.ovfMode (.reg r) ((s.reg r).toInt - v.toInt))) :=
  execSub_of_resolved ((writesTo_reg_iff s d r).mpr hd)
    (regNamed_readsAs s d r ((classify_eq_reg_iff _ _ _).mp hd)) (readsAs_of_imm hsrc)

end

/-- Settles O45: ADD keeps the register names, so SUB reads the sum back, and wrapping the difference gives the old
value, whether or not the sum overflowed. -/
theorem subUndoesAdd : Obligations.SubUndoesAdd := by
  unfold Obligations.SubUndoesAdd
  intro s d src r v hpc hof hd hsrc
  obtain ⟨hcfg, -⟩ := sameFrame_commit s (exactResult s.cfg.ovfMode (.reg r) ((s.reg r).toInt + v.toInt))
  refine ⟨_, _, execAdd_of_reg_imm hd hsrc, execSub_of_reg_imm (hcfg.symm ▸ hd) (hcfg.symm ▸ hsrc), ?_⟩
  simp only [exactResult, reg_commit_dest_same _ _ _ hpc hof, wrap32_add_sub_cancel]

end Sys2Proof.Machine
end

section
/-! AND, OR and NOT on operands that resolve (R180 to R182). -/

namespace Sys2Proof.Machine

/-! ### What each instruction ends with -/

section
variable {s : State} {d src : Token} {p : Place} {a b : Word}

theorem execAnd_of_resolved (hp : writesTo s d p = true) (ha : readsAs s d a = true)
    (hb : readsAs s src b = true) :
    exec (.and d src) s = .next (commit s { dest := some (p, a &&& b) }) :=
  congrArg (complete s) (withOperands_of_resolved s d src _ p a b hp ha hb)

theorem execOr_of_resolved (hp : writesTo s d p = true) (ha : readsAs s d a = true)
    (hb : readsAs s src b = true) :
    exec (.or d src) s = .next (commit s { dest := some (p, a ||| b) }) :=
  congrArg (complete s) (withOperands_of_resolved s d src _ p a b hp ha hb)

/-- NOT takes steps 1 and 2 of R114 alone: it reads its destination and no source. -/
theorem execNot_of_resolved (hp : writesTo s d p = true) (ha : readsAs s d a = true) :
    exec (.not d) s = .next (commit s { dest := some (p, ~~~a) }) := by
  show execNot d s = _
  simp only [execNot, (resolveDest_eq_ok_iff s d p).mpr hp, (readPlace_eq_ok_iff s d p a hp).mpr ha, complete_ok]

end

/-! ### The complement -/

/-- The complement of the bits counts down from -1 (R182): unsigned it is `2^32 - 1 - a`, which changes the sign. -/
theorem toInt_not_eq_neg_sub_one (a : Word) : (~~~a).toInt = -a.toInt - 1 := by
  have hbits : (~~~a).toNat = 2 ^ 32 - 1 - a.toNat := BitVec.toNat_not
  have hlt : a.toNat < 2 ^ 32 := a.isLt
  rw [BitVec.toInt_eq_toNat_cond, BitVec.toInt_eq_toNat_cond, hbits]
  split <;> split <;> omega

/-- A destination register but `PC` holds the value written, `OF` too where no overflow is written over it (R28,
R104). -/
theorem reg_commit_dest_of_ne_pc {r : Reg} (s : State) (v : Word) (hpc : r ≠ .pc) :
    (commit s { dest := some (.reg r, v) }).reg r = v := by
  rw [commit_dest, reg_advance_other _ r hpc, writePlace_reg, reg_setReg_same]

/-! ### The obligations -/

/-- Settles O41: AND and OR commit the words' conjunction and disjunction, which are those of each bit. -/
theorem andOrStore : Obligations.AndOrStore := by
  unfold Obligations.AndOrStore
  intro s d src p a b hm hp ha hb
  constructor
  · exact ⟨_, a &&& b, execAnd_of_resolved hp ha hb, commit_dest_stores s p _ hm,
      fun _ _ => BitVec.getLsbD_and⟩
  · exact ⟨_, a ||| b, execOr_of_resolved hp ha hb, commit_dest_stores s p _ hm,
      fun _ _ => BitVec.getLsbD_or⟩

/-- Settles O42: NOT commits the complement, which is one word as bits and as a number. -/
theorem notStores : Obligations.NotStores := by
  unfold Obligations.NotStores
  intro s d p a hm hp ha
  refine ⟨_, ~~~a, execNot_of_resolved hp ha, commit_dest_stores s p _ hm, toInt_not_eq_neg_sub_one a, ?_⟩
  intro k hk
  rw [BitVec.getLsbD_not, decide_eq_true hk, Bool.true_and]

/-- Settles O46: the first NOT keeps the register names, so the second reads the complement back and complements
it again. -/
theorem notTwiceRestores : Obligations.NotTwiceRestores := by
  unfold Obligations.NotTwiceRestores
  intro s d r hpc hd
  obtain ⟨hcfg, -⟩ := sameFrame_commit s { dest := some (.reg r, ~~~s.reg r) }
  refine ⟨_, _, execNot_of_reg s d r hd, execNot_of_reg _ d r (hcfg.symm ▸ hd), ?_⟩
  rw [reg_commit_dest_of_ne_pc _ _ hpc, reg_commit_dest_of_ne_pc _ _ hpc, BitVec.not_not]

end Sys2Proof.Machine
end

section
/-! CMP: the sign of the exact difference, and the conditions of the jumps that read it (R200, R201, R215). -/

namespace Sys2Proof.Machine

/-! ### The comparison value -/

/-- The comparison is exact (R200, C2): the difference of the integers is never wrapped. -/
theorem toInt_compareValue_eq_sign (a b : Word) : (compareValue a b).toInt = (a.toInt - b.toInt).sign := by
  obtain hlt | heq | hgt := lt_trichotomy a.toInt b.toInt
  · rw [compareValue, if_pos hlt, Int.sign_eq_neg_one_of_neg (Int.sub_neg_of_lt hlt)]
    rfl
  · rw [compareValue, if_neg heq.not_lt, if_pos heq, Int.sub_eq_zero_of_eq heq]
    rfl
  · rw [compareValue, if_neg hgt.not_gt, if_neg hgt.ne', Int.sign_eq_one_of_pos (Int.sub_pos_of_lt hgt)]
    rfl

/-! ### What CMP ends with -/

section
variable {s t : State} {d src : Token}

theorem execCmp_of_resolved {p : Place} {a b : Word} (hp : writesTo s d p = true) (ha : readsAs s d a = true)
    (hb : readsAs s src b = true) :
    exec (.cmp d src) s = .next (commit s { dest := some (.reg .cr, compareValue a b) }) :=
  congrArg (complete s) (withOperands_of_resolved s d src _ p a b hp ha hb)

/-- A CMP that leaves `FAULT = 0` raised nothing, so it committed the comparison of its operands (R105, R200). -/
theorem reg_cr_of_execCmp (h : exec (.cmp d src) s = .next t) (hfault : t.fault = false) :
    ∃ a b, readsAs s d a = true ∧ readsAs s src b = true ∧ t.reg .cr = compareValue a b := by
  obtain ⟨q, hq, rfl⟩ | ⟨f, -, rfl⟩ := complete_eq_next s t _ h
  · obtain ⟨-, a, b, -, ha, hb, rfl⟩ := withOperands_eq_ok s d src _ q hq
    exact ⟨a, b, ha, hb, reg_commit_dest_of_ne_pc s _ (by decide)⟩
  · rw [takeFault_fault] at hfault
    cases hfault

end

/-! ### The conditions of the jumps -/

/-- A word is the wrapped `v` exactly when it is `v`, for a `v` that wrapping leaves as it is (R10). -/
theorem beq_wrap32_eq_decide (x : Word) {v : Int} (hv : (wrap32 v).toInt = v) :
    (x == wrap32 v) = decide (x.toInt = v) := by
  rw [Bool.eq_iff_iff, beq_iff_eq, decide_eq_true_iff, ← BitVec.toInt_inj, hv]

section
variable (s : State)

theorem isGreater_eq_decide : isGreater s = decide ((s.reg .cr).toInt = 1) := beq_wrap32_eq_decide _ rfl

theorem isLess_eq_decide : isLess s = decide ((s.reg .cr).toInt = -1) := beq_wrap32_eq_decide _ rfl

theorem isEqual_eq_decide : isEqual s = decide ((s.reg .cr).toInt = 0) := beq_wrap32_eq_decide _ rfl

/-- While `CR` holds a comparison value, exactly one condition holds (R201, R215). -/
theorem one_condition_of_cr
    (h : (s.reg .cr).toInt = -1 ∨ (s.reg .cr).toInt = 0 ∨ (s.reg .cr).toInt = 1) :
    (isGreater s = true ∧ isLess s = false ∧ isEqual s = false) ∨
      (isGreater s = false ∧ isLess s = true ∧ isEqual s = false) ∨
      (isGreater s = false ∧ isLess s = false ∧ isEqual s = true) := by
  rw [isGreater_eq_decide, isLess_eq_decide, isEqual_eq_decide]
  obtain hless | hequal | hgreater := h
  · exact .inr (.inl (by simp [hless]))
  · exact .inr (.inr (by simp [hequal]))
  · exact .inl (by simp [hgreater])

end

section
variable {s : State} (l : Token)

/-! A conditional jump whose condition holds is JMP (R216 to R219). -/

theorem execJg_of_isGreater (h : isGreater s = true) : exec (.jg l) s = exec (.jmp l) s :=
  congrArg (fun taken => complete s (jump s l taken)) h

theorem execJl_of_isLess (h : isLess s = true) : exec (.jl l) s = exec (.jmp l) s :=
  congrArg (fun taken => complete s (jump s l taken)) h

theorem execJe_of_isEqual (h : isEqual s = true) : exec (.je l) s = exec (.jmp l) s :=
  congrArg (fun taken => complete s (jump s l taken)) h

end

/-! ### The obligations -/

/-- Settles O43: on resolved operands CMP commits the comparison to `CR`, whatever place operand 1 is. -/
theorem cmpSetsSign : Obligations.CmpSetsSign := by
  unfold Obligations.CmpSetsSign
  intro s d src p a b hm hp ha hb
  exact ⟨_, _, execCmp_of_resolved hp ha hb, commit_dest_stores s (.reg .cr) _ hm, toInt_compareValue_eq_sign a b⟩

/-- Settles O44: the `CR` the CMP left is a comparison value, and the conditions read nothing but `CR`. -/
theorem cmpOneCondition : Obligations.CmpOneCondition := by
  unfold Obligations.CmpOneCondition
  intro s t u d src h hfault hcr
  obtain ⟨a, b, -, -, hcompare⟩ := reg_cr_of_execCmp h hfault
  have hvalue : (u.reg .cr).toInt = -1 ∨ (u.reg .cr).toInt = 0 ∨ (u.reg .cr).toInt = 1 := by
    rw [hcr, hcompare]
    exact compareValue_toInt a b
  exact ⟨hvalue, one_condition_of_cr u hvalue,
    fun l => ⟨execJg_of_isGreater l, execJl_of_isLess l, execJe_of_isEqual l⟩⟩

end Sys2Proof.Machine
end

section
/-! The four jumps (R211, R213 to R221): each is the shared `jump` at its own condition, which looks the label up
first and checks the target only when the jump is taken. -/

namespace Sys2Proof.Machine

section
variable {s : State} {l : Token}

/-! ### Lookup before the condition -/

/-- A missing label ends a jump, taken or not (R211, R220). -/
theorem jump_of_noLabel (taken : Bool) (h : noLabel s (labelName l) = true) :
    jump s l taken = .error (.raise .labelNotFound) := by
  rw [jump, (findLabel_eq_raise_iff s _).mpr h]

/-- Once the label is found, the condition alone decides between the target check and nothing (R216, R220). -/
theorem jump_of_firstLabel {a : Nat} (taken : Bool) (h : firstLabel s (labelName l) a = true) :
    jump s l taken = if taken then takeJump s a (labelName l) else .ok {} := by
  rw [jump, (findLabel_eq_ok_iff s _ a).mpr h]

/-! ### Each jump at its condition -/

/-- A conditional jump is the shared jump, taken exactly when `CR` is its value (R215, R217 to R219). -/
theorem exec_conditional : ∀ e ∈ conditionalJumps,
    exec (e.1 l) s = complete s (jump s l (decide ((s.reg .cr).toInt = e.2))) := by
  have hend := fun {c d : Bool} (h : c = d) => congrArg (fun taken => complete s (jump s l taken)) h
  simp only [conditionalJumps, List.forall_mem_cons]
  exact ⟨hend (isGreater_eq_decide s), hend (isLess_eq_decide s), hend (isEqual_eq_decide s), by simp⟩

/-- A conditional jump whose condition holds is JMP (R216 to R219). -/
theorem exec_conditional_of_taken {e : (Token → Instr) × Int} (he : e ∈ conditionalJumps)
    (hcr : (s.reg .cr).toInt = e.2) : exec (e.1 l) s = exec (.jmp l) s := by
  rw [exec_conditional e he, decide_eq_true hcr]
  rfl

/-- A jump is JMP or one of the conditional jumps, so each runs the shared jump at some condition (R216 to R219). -/
theorem exec_jump_eq_complete : ∀ op ∈ jumps, ∃ taken, exec (op l) s = complete s (jump s l taken) := by
  simp only [jumps, List.forall_mem_cons]
  exact ⟨⟨true, rfl⟩, ⟨isGreater s, rfl⟩, ⟨isLess s, rfl⟩, ⟨isEqual s, rfl⟩, by simp⟩

/-! ### How a jump ends -/

/-- JMP to a malformed cell ends in the fault of the target check (R213, R221). -/
theorem execJmp_of_bad_target {a : Nat} (ha : firstLabel s (labelName l) a = true)
    (ht : targetOk s (cellText (s.mem.read a)) = false) :
    exec (.jmp l) s = complete s (.error (.raise .badTarget)) := by
  show complete s (jump s l true) = _
  rw [jump_of_firstLabel true ha, if_pos rfl, takeJump_of_bad s a _ ht]

/-- A conditional jump not taken only advances, whatever the cell of its label holds (R220). -/
theorem exec_conditional_of_not_taken {a : Nat} {e : (Token → Instr) × Int} (he : e ∈ conditionalJumps)
    (hcr : (s.reg .cr).toInt ≠ e.2) (ha : firstLabel s (labelName l) a = true) :
    exec (e.1 l) s = .next s.advance := by
  rw [exec_conditional e he, jump_of_firstLabel _ ha, decide_eq_false hcr, if_neg Bool.false_ne_true, complete_ok,
    commit_nothing]

/-- Every jump to a label that no cell defines faults, whatever its condition (R211, R216, R220). -/
theorem exec_jump_faults_of_noLabel (hfault : s.fault = false) (h : noLabel s (labelName l) = true) :
    ∀ op ∈ jumps, Faults (exec (op l) s) s .labelNotFound := by
  intro op hop
  obtain ⟨taken, hexec⟩ := exec_jump_eq_complete (s := s) (l := l) op hop
  exact faults_of_eq_raise hfault (by rw [hexec, jump_of_noLabel taken h])

end

/-- The conditional jumps are jumps. -/
theorem mem_jumps_of_conditional {e : (Token → Instr) × Int} (he : e ∈ conditionalJumps) : e.1 ∈ jumps := by
  simp only [conditionalJumps, List.mem_cons, List.not_mem_nil, or_false] at he
  obtain rfl | rfl | rfl := he <;> simp [jumps]

/-! ### The obligations -/

/-- Settles O53: JMP lands on the cell, and landing leaves what R213 and R214 say. -/
theorem jmpTaken : Obligations.JmpTaken := by
  unfold Obligations.JmpTaken
  intro s l a u hlabels ha hread htarget
  have hok : targetOk s (cellText (s.mem.read a)) = true := by rw [hread]; exact htarget
  exact ⟨_, execJmp_lands s l a ha hok, land_jumpsTo s a _ u hlabels hread htarget⟩

/-- Settles O54: with its value in `CR` a conditional jump is JMP, which O53 settles. -/
theorem conditionalJumpTaken : Obligations.ConditionalJumpTaken := by
  unfold Obligations.ConditionalJumpTaken
  intro s l a u hlabels ha hread htarget e he hcr
  rw [exec_conditional_of_taken he hcr]
  exact jmpTaken s l a u hlabels ha hread htarget

/-- Settles O55: the lookup comes before the condition, and the target check only after it. -/
theorem conditionalJumpNotTaken : Obligations.ConditionalJumpNotTaken := by
  unfold Obligations.ConditionalJumpNotTaken
  intro s l e he hcr
  constructor
  · intro hnone hfault
    exact exec_jump_faults_of_noLabel hfault hnone e.1 (mem_jumps_of_conditional he)
  · intro a ha
    exact ⟨_, exec_conditional_of_not_taken he hcr ha, advance_advances s⟩

/-- Settles O56: the lookup raises before any condition is read. -/
theorem missingLabelFaults : Obligations.MissingLabelFaults := by
  unfold Obligations.MissingLabelFaults
  intro s l hfault hnone
  exact exec_jump_faults_of_noLabel hfault hnone

/-- Settles O57: JMP raises in the target check, and with its value in `CR` a conditional jump is JMP. -/
theorem badTargetFaults : Obligations.BadTargetFaults := by
  unfold Obligations.BadTargetFaults
  intro s l a u hfault ha hread htarget
  have hbad : targetOk s (cellText (s.mem.read a)) = false := by rw [hread]; exact htarget
  have hjmp : Faults (exec (.jmp l) s) s .badTarget := faults_of_eq_raise hfault (execJmp_of_bad_target ha hbad)
  refine ⟨hjmp, fun e he hcr => ?_⟩
  rw [exec_conditional_of_taken he hcr]
  exact hjmp

end Sys2Proof.Machine
end

section
/-! The host's operations (R271, R273, R274, R281, R283): the two ends of a load, what a failed load latches, the
dump, and the obligations on them. -/

namespace Sys2Proof.Machine

/-! ### A load that succeeds -/

/-- A source that fits replaces memory, `instSize` and the label table, and nothing else (R273). -/
theorem load_of_fits {s : State} {lines : List Text} (h : lines.length ≤ s.cfg.memSize) :
    load (some lines) s = { s with mem := lineCells 0 lines, instSize := lines.length, labels := [] } :=
  if_neg (not_lt.mpr h)

/-- Line `a` stands in cell `a` as program text. -/
theorem read_lineCells_of_some {lines : List Text} {a : Nat} {t : Text} (h : lines[a]? = some t) :
    (lineCells 0 lines).read a = .instr t := by
  simp [lineCells_read, h]

/-- Past the last line every cell is blank. -/
theorem read_lineCells_of_none {lines : List Text} {a : Nat} (h : lines[a]? = none) :
    (lineCells 0 lines).read a = .data 0 := by
  simp [lineCells_read, h, blankCell]

/-! ### A load that fails -/

/-- A source that cannot be opened, or that has more lines than memory has cells, is a load fault with its cause
(R273). -/
theorem load_of_failure {s : State} {source : Option (List Text)} {f : FaultCause}
    (h : source = none ∧ f = .ioOpen ∨
      ∃ lines, source = some lines ∧ s.cfg.memSize < lines.length ∧ f = .capacity) :
    load source s = takeLoadFault s f := by
  obtain ⟨rfl, rfl⟩ | ⟨lines, rfl, hlong, rfl⟩ := h
  · rfl
  · exact if_pos hlong

section
variable (s : State) (f : FaultCause)

@[simp] theorem takeLoadFault_fault : (takeLoadFault s f).fault = true := rfl
@[simp] theorem takeLoadFault_fcause :
    (takeLoadFault s f).fcause = if s.fault then s.fcause else f := rfl
@[simp] theorem reg_takeLoadFault (r : Reg) : (takeLoadFault s f).reg r = s.reg r := rfl

/-- Whatever is drawn for `instSize` is brought into its range (R30, log 9). -/
theorem takeLoadFault_instSize_le : (takeLoadFault s f).instSize ≤ s.cfg.memSize :=
  Nat.le_of_lt_succ (Nat.mod_lt _ (Nat.succ_pos _))

end

/-! ### Running and dumping -/

/-- Under a fault a run ends before its first step (R100, R244). -/
theorem execute_of_fault_set {s : State} (n : Nat) (h : s.fault = true) : execute n s = .ended .faultHalt s :=
  execute_of_fault n (step_of_loopEnd s _ ((loopEnd_eq_faultHalt_iff s).mpr h))

/-- Under a fault there is nothing to dump (R283). -/
theorem dump_of_fault_set {s : State} (h : s.fault = true) : dump s = [] :=
  if_pos h

/-- Without a fault the dump is one record for each address, in order (R283). -/
theorem dump_of_no_fault {s : State} (h : s.fault = false) :
    dump s = (List.range s.cfg.memSize).map (fun a => (a, s.labels.find a, s.mem.read a)) := by
  simp [dump, h]

/-! ### The invariant -/

/-- After `clear` memory and the label table are as they were, and no program can run (R271, R272). -/
theorem machineInv_clear (s : State) (h : MachineInv s) : MachineInv (clear s) := by
  obtain ⟨hwf, hbelow, hrising, hlabels, -⟩ := h
  refine ⟨hwf, hbelow, hrising, hlabels, Nat.zero_le _, by simp, fun _ hpos => ?_⟩
  exact absurd hpos (by simp)

/-! ### The obligations -/

/-- Settles O11: a source that fits is placed line by line, and cell `a` has a line or is blank. -/
theorem loadPlacesLines : Obligations.LoadPlacesLines := by
  unfold Obligations.LoadPlacesLines
  intro s lines hfits
  rw [load_of_fits hfits]
  refine ⟨fun a => ?_, rfl, rfl, fun _ => rfl, rfl, rfl, rfl⟩
  cases hline : lines[a]? with
  | some t => exact read_lineCells_of_some hline
  | none => exact read_lineCells_of_none hline

/-- Settles O12: both failures are load faults, and `FAULT` alone stops the run and empties the dump. -/
theorem failedLoadLatches : Obligations.FailedLoadLatches := by
  unfold Obligations.FailedLoadLatches
  intro s source f hfail
  rw [load_of_failure hfail]
  have hfault : (takeLoadFault s f).fault = true := takeLoadFault_fault s f
  exact ⟨hfault, takeLoadFault_fcause s f, reg_takeLoadFault s f, takeLoadFault_instSize_le s f,
    fun n => execute_of_fault_set n hfault, dump_of_fault_set hfault⟩

/-- Settles O25, for `clear` and for the two ends of a load. -/
theorem hostKeepsInv : Obligations.HostKeepsInv := by
  unfold Obligations.HostKeepsInv
  intro s hinv
  exact ⟨machineInv_clear s hinv, fun source => machineInv_load s source hinv⟩

/-- Settles O9, from the fields of a cleared state. -/
theorem clearResets : Obligations.ClearResets := by
  unfold Obligations.ClearResets
  intro s
  exact ⟨reg_clear s, clear_instSize s, clear_fault s, clear_fcause s, clear_mem s, clear_labels s, clear_cfg s⟩

/-- Settles O13, for the two values of `FAULT`. -/
theorem dumpRecords : Obligations.DumpRecords := by
  unfold Obligations.DumpRecords
  intro s
  refine ⟨dump_of_fault_set, fun hfault => ?_⟩
  rw [dump_of_no_fault hfault]
  refine ⟨by simp, fun a ha => ?_⟩
  simp [List.getElem?_range ha]

/-- Settles O14: the query answers the two fields, and the code of each cause is its place in R241's table. -/
theorem faultQueryCodes : Obligations.FaultQueryCodes := by
  unfold Obligations.FaultQueryCodes
  exact ⟨fun _ => rfl, rfl⟩

end Sys2Proof.Machine
end
